-- ==== Sys2Proof/Word.lean ====
section
/-! DEFINITION. The word types of the block and their plainest arithmetic: the 32-bit command word and response
value, the 10-bit storage entry, and zero extension (spec/00_scope.md section 5: nothing in the block is signed). -/

namespace Sys2Proof

/-- A command word or a response value: 32 bits (R40, R42). -/
abbrev Word := BitVec 32

/-- One byte of a narrower transport (R32). -/
abbrev Byte := BitVec 8

/-- One storage entry: `W = 10` bits (R3, R30). -/
abbrev Entry := BitVec 10

/-- `zext_32(v)` of a bit vector (spec/00_scope.md section 5). -/
abbrev zext32 (v : BitVec w) : Word := v.setWidth 32

/-- `zext_32(v)` of a natural number below `2^32`; every number the block returns is below `2^20` (R58). -/
abbrev word32 (v : Nat) : Word := BitVec.ofNat 32 v

end Sys2Proof
end

