-- ==== Sys2Proof/Syntax.lean ====
section
/-! DEFINITION. The commands of the block: one constructor of `Instr` per row of spec/opcode_table.json (R43), with
its operands as the natural numbers the rules compute with (R41: unsigned, used as they stand); the four
pseudo-instructions and their expansions (R49); the assembler spelling of a command (R48). -/

namespace Sys2Proof

/-- The sixteen commands of R43. An operand is named as the command's own rule names it. -/
inductive Instr where
  /-- `NOP` (R80). -/
  | nop
  /-- `RST` (R82). -/
  | rst
  /-- `RDR sel` (R83). -/
  | rdr (sel : Nat)
  /-- `BFLD msel, root` (R50). -/
  | bfld (msel root : Nat)
  /-- `GMUL a, b` (R55). -/
  | gmul (a b : Nat)
  /-- `RDLOG x` (R53). -/
  | rdlog (x : Nat)
  /-- `RDPOW i` (R54). -/
  | rdpow (i : Nat)
  /-- `BGEN n` (R60). -/
  | bgen (n : Nat)
  /-- `GLOAD n` (R61). -/
  | gload (n : Nat)
  /-- `GPUSH v` (R62). -/
  | gpush (v : Nat)
  /-- `RDG k` (R63). -/
  | rdg (k : Nat)
  /-- `EINIT` (R70). -/
  | einit
  /-- `EDATA d` (R72). -/
  | edata (d : Nat)
  /-- `EFIN` (R73). -/
  | efin
  /-- `RDCHK j` (R74). -/
  | rdchk (j : Nat)
  /-- `RDACC j` (R75). -/
  | rdacc (j : Nat)
deriving DecidableEq, Repr

/-- The pseudo-instructions of R49. -/
inductive Pseudo where
  /-- `FIELD283`. -/
  | field283
  /-- `FIELD929`. -/
  | field929
  /-- `LDGEN c0, c1, ..., c(n-1)`. -/
  | ldgen (coefficients : List Nat)
  /-- `ENCODE d0, d1, ..., d(k-1)`. -/
  | encode (data : List Nat)
deriving DecidableEq, Repr

/-- The expansion of a pseudo-instruction to real commands, in the order R49 shows. -/
def Pseudo.expand : Pseudo → List Instr
  | .field283 => [.bfld 0 3]
  | .field929 => [.bfld 1 3]
  | .ldgen cs => .gload cs.length :: cs.map .gpush
  | .encode ds => .einit :: (ds.map .edata ++ [.efin])

/-- The mnemonic of a command, in capitals (R43, R48). -/
def Instr.mnemonic : Instr → String
  | .nop => "NOP"
  | .rst => "RST"
  | .rdr _ => "RDR"
  | .bfld _ _ => "BFLD"
  | .gmul _ _ => "GMUL"
  | .rdlog _ => "RDLOG"
  | .rdpow _ => "RDPOW"
  | .bgen _ => "BGEN"
  | .gload _ => "GLOAD"
  | .gpush _ => "GPUSH"
  | .rdg _ => "RDG"
  | .einit => "EINIT"
  | .edata _ => "EDATA"
  | .efin => "EFIN"
  | .rdchk _ => "RDCHK"
  | .rdacc _ => "RDACC"

/-- The operands of a command in the order of the fields `A`, `B` (R48). -/
def Instr.operands : Instr → List Nat
  | .nop => []
  | .rst => []
  | .rdr sel => [sel]
  | .bfld msel root => [msel, root]
  | .gmul a b => [a, b]
  | .rdlog x => [x]
  | .rdpow i => [i]
  | .bgen n => [n]
  | .gload n => [n]
  | .gpush v => [v]
  | .rdg k => [k]
  | .einit => []
  | .edata d => [d]
  | .efin => []
  | .rdchk j => [j]
  | .rdacc j => [j]

/-- The assembler line of a command: `MNEMONIC`, `MNEMONIC A` or `MNEMONIC A, B`, operands in decimal (R48). -/
def Instr.assembler (i : Instr) : String :=
  match i.operands with
  | [] => i.mnemonic
  | [a] => i.mnemonic ++ " " ++ toString a
  | a :: b :: _ => i.mnemonic ++ " " ++ toString a ++ ", " ++ toString b

end Sys2Proof
end

