-- ==== Sys2Proof/WellFormed.lean ====
section
/-! DEFINITION. Which terms of `Instr` are commands a host can send: every operand is an unsigned 12-bit number,
`[0, 4095]` (R41). An operand outside the range its own command allows is still well formed: it is a legal encoding
whose execution fails with `E_RANGE` (R41). -/

namespace Sys2Proof

/-- An operand fits its 12-bit field (R40, R41). -/
abbrev OperandFits (x : Nat) : Prop := x < 4096

/-- Every operand of the command fits its field. -/
abbrev WellFormed (i : Instr) : Prop := ∀ x ∈ i.operands, OperandFits x

/-- A pseudo-instruction a host may write: `LDGEN` needs at least one operand, and every operand fits (R49). -/
abbrev Pseudo.Legal (p : Pseudo) : Prop :=
  p ≠ .ldgen [] ∧ ∀ i ∈ p.expand, WellFormed i

end Sys2Proof
end

