-- ==== Sys2Proof/Decode.lean ====
section
/-! DEFINITION. The command word (R40), its decoder (R43, R46, R47), its encoder, and the byte order of a
transport narrower than 32 bits (R32). `decode` is total: each of the `2^32` words is one of the sixteen commands or
is rejected by name. -/

namespace Sys2Proof

/-! ## The fields of a command word (R40) -/

/-- `w[31:24]`, the opcode. -/
def opField (w : Word) : BitVec 8 := w.extractLsb' 24 8

/-- `w[23:12]`, the first operand. -/
def fieldA (w : Word) : BitVec 12 := w.extractLsb' 12 12

/-- `w[11:0]`, the second operand. -/
def fieldB (w : Word) : BitVec 12 := w.extractLsb' 0 12

/-- `(op << 24) | (A << 12) | B`. -/
def commandWord (op : BitVec 8) (a b : BitVec 12) : Word := op ++ a ++ b

/-! ## The decoder -/

/-- Why a word is `Illegal` (R46): both reasons raise the one error `E_ILLEGAL` (R101). -/
inductive Illegal where
  /-- The opcode is one of the 240 that R43 does not list. -/
  | unassignedOpcode
  /-- The opcode is in the table and an operand field that the command does not use is not zero. -/
  | nonzeroUnusedField
deriving DecidableEq, Repr

/-- What `decode` answers: a command, or the reason why the word is illegal. -/
abbrev Decoded := Except Illegal Instr

/-- A command without operands: `A = 0` and `B = 0` (R41). -/
def noOperand (a b : BitVec 12) (i : Instr) : Decoded :=
  if a = 0 ∧ b = 0 then .ok i else .error .nonzeroUnusedField

/-- A command with the one operand `A`: `B = 0` (R41). -/
def oneOperand (a b : BitVec 12) (i : Nat → Instr) : Decoded :=
  if b = 0 then .ok (i a.toNat) else .error .nonzeroUnusedField

/-- A command with both operands. -/
def twoOperands (a b : BitVec 12) (i : Nat → Nat → Instr) : Decoded :=
  .ok (i a.toNat b.toNat)

/-- `decode` on the three fields of a word, row by row of R43. -/
def decodeFields (op : BitVec 8) (a b : BitVec 12) : Decoded :=
  match op with
  | 0x00#8 => noOperand a b .nop
  | 0x01#8 => noOperand a b .rst
  | 0x02#8 => oneOperand a b .rdr
  | 0x10#8 => twoOperands a b .bfld
  | 0x11#8 => twoOperands a b .gmul
  | 0x12#8 => oneOperand a b .rdlog
  | 0x13#8 => oneOperand a b .rdpow
  | 0x20#8 => oneOperand a b .bgen
  | 0x21#8 => oneOperand a b .gload
  | 0x22#8 => oneOperand a b .gpush
  | 0x23#8 => oneOperand a b .rdg
  | 0x30#8 => noOperand a b .einit
  | 0x31#8 => oneOperand a b .edata
  | 0x32#8 => noOperand a b .efin
  | 0x33#8 => oneOperand a b .rdchk
  | 0x34#8 => oneOperand a b .rdacc
  | _ => .error .unassignedOpcode

/-- `decode(w)` of R43: a function of the word alone (R47). -/
def decode (w : Word) : Decoded := decodeFields (opField w) (fieldA w) (fieldB w)

/-! ## The encoder -/

/-- The opcode of a command (R43). -/
def opcode : Instr → BitVec 8
  | .nop => 0x00
  | .rst => 0x01
  | .rdr _ => 0x02
  | .bfld _ _ => 0x10
  | .gmul _ _ => 0x11
  | .rdlog _ => 0x12
  | .rdpow _ => 0x13
  | .bgen _ => 0x20
  | .gload _ => 0x21
  | .gpush _ => 0x22
  | .rdg _ => 0x23
  | .einit => 0x30
  | .edata _ => 0x31
  | .efin => 0x32
  | .rdchk _ => 0x33
  | .rdacc _ => 0x34

/-- The operand field `A` of a command, 0 for a command without operands. -/
def operandA (i : Instr) : BitVec 12 := BitVec.ofNat 12 (i.operands.getD 0 0)

/-- The operand field `B` of a command, 0 for a command that does not use it. -/
def operandB (i : Instr) : BitVec 12 := BitVec.ofNat 12 (i.operands.getD 1 0)

/-- The command word of a command (R40): the word a host sends for it. -/
def encode (i : Instr) : Word := commandWord (opcode i) (operandA i) (operandB i)

/-! ## The opcode map as R43 prints it -/

/-- One row of the table of R43: a word is this row's command exactly when `(w & mask) = pattern`. -/
structure OpcodeRow where
  mnemonic : String
  pattern : Word
  mask : Word
  /-- The command, from the numbers in the fields `A` and `B`. -/
  command : Nat → Nat → Instr

/-- The columns `match` and `mask` of the table of R43, row by row. -/
def opcodeTable : List OpcodeRow :=
  [ ⟨"NOP", 0x00000000, 0xFFFFFFFF, fun _ _ => .nop⟩,
    ⟨"RST", 0x01000000, 0xFFFFFFFF, fun _ _ => .rst⟩,
    ⟨"RDR", 0x02000000, 0xFF000FFF, fun a _ => .rdr a⟩,
    ⟨"BFLD", 0x10000000, 0xFF000000, fun a b => .bfld a b⟩,
    ⟨"GMUL", 0x11000000, 0xFF000000, fun a b => .gmul a b⟩,
    ⟨"RDLOG", 0x12000000, 0xFF000FFF, fun a _ => .rdlog a⟩,
    ⟨"RDPOW", 0x13000000, 0xFF000FFF, fun a _ => .rdpow a⟩,
    ⟨"BGEN", 0x20000000, 0xFF000FFF, fun a _ => .bgen a⟩,
    ⟨"GLOAD", 0x21000000, 0xFF000FFF, fun a _ => .gload a⟩,
    ⟨"GPUSH", 0x22000000, 0xFF000FFF, fun a _ => .gpush a⟩,
    ⟨"RDG", 0x23000000, 0xFF000FFF, fun a _ => .rdg a⟩,
    ⟨"EINIT", 0x30000000, 0xFFFFFFFF, fun _ _ => .einit⟩,
    ⟨"EDATA", 0x31000000, 0xFF000FFF, fun a _ => .edata a⟩,
    ⟨"EFIN", 0x32000000, 0xFFFFFFFF, fun _ _ => .efin⟩,
    ⟨"RDCHK", 0x33000000, 0xFF000FFF, fun a _ => .rdchk a⟩,
    ⟨"RDACC", 0x34000000, 0xFF000FFF, fun a _ => .rdacc a⟩ ]

/-! ## A narrow transport (R32) -/

/-- The bytes in which a byte-wide transport carries a 32-bit word: the least significant byte first (R32). -/
def transportBytes (w : Word) : List Byte :=
  [w.extractLsb' 0 8, w.extractLsb' 8 8, w.extractLsb' 16 8, w.extractLsb' 24 8]

/-- The word that four bytes of such a transport carry; any other number of bytes is no word. -/
def wordOfTransport : List Byte → Option Word
  | [b0, b1, b2, b3] => some (b3 ++ b2 ++ b1 ++ b0)
  | _ => none

/-! ## What the host asks -/

/-- The instruction the decoder reads from an instruction whose bits are `w`, numbered as
spec/opcode_table.json numbers them; the bits from `nbits` on are 0. A command is one whole 32-bit word, so no byte
order enters (R32, R40). -/
def decodeTableWord (nbits w : Nat) : Option Instr :=
  match decode (BitVec.ofNat 32 (w % 2 ^ nbits)) with
  | .ok i => some i
  | .error _ => none

end Sys2Proof
end

