-- ==== Sys2Proof/Config.lean ====
section
/-! DEFINITION. The implementation parameters of the block, R3, each at the value the table of R3 gives it.
No parameter is left open: `ECC_MAX` is the one the spec lets a model choose, and it stands at its default 128
(notes/assumptions/7.md). -/

namespace Sys2Proof.Config

/-- `MOD(0)`. -/
def mod0 : Nat := 283

/-- `MOD(1)`. -/
def mod1 : Nat := 929

/-- `ECC_MIN`, the smallest `ecc_length` accepted. -/
def eccMin : Nat := 1

/-- `ECC_MAX`, the largest `ecc_length` accepted (OPEN parameter of the spec's D4, default 128). -/
def eccMax : Nat := 128

/-- `GEN_FIRST_EXP`, the exponent of the first root of a built generator. -/
def genFirstExp : Nat := 0

/-- `LOG_DEPTH`, the entries of the log memory. -/
def logDepth : Nat := 1024

/-- `POW_DEPTH`, the entries of the antilog memory. -/
def powDepth : Nat := 2048

/-- The entries of the generator register file, `ECC_MAX + 1` (R13). -/
def gDepth : Nat := eccMax + 1

/-- The entries of the accumulator register file, `ECC_MAX` (R14). -/
def accDepth : Nat := eccMax

/-- The version of the interface, read in `CAP[19:16]` (R27). -/
def version : Nat := 1

/-- The highest register number `RDR` reads (R20). -/
def lastRegister : Nat := 6

end Sys2Proof.Config
end

