-- ==== Sys2Proof/Machine/State.lean ====
section
/-! DEFINITION. The state of the block (spec/10_state.md): the scalar registers and flags of R10 and R11, the four
storage spaces of R30, the response the block holds at its port until it is delivered (R44), and the model's own
record of the port signals still to come. Plain data throughout. `State.reset` is the state of R120. -/

namespace Sys2Proof.Machine

/-- The encoder phase, R12; the value 3 of the two-bit register is never taken (R12, R18). -/
inductive Phase where
  /-- 0: no encode in progress and no result held. -/
  | idle
  /-- 1: `EINIT` was accepted, `ACC` holds the running remainder. -/
  | encoding
  /-- 2: `EFIN` was accepted, `ACC` holds the check codewords. -/
  | done
deriving DecidableEq, Repr

/-- The error codes of R100; codes 8 to 15 of the four-bit field are never produced. -/
inductive ErrCode where
  /-- 0 `OK`: the command succeeded; in `ERR`, the block is not halted. -/
  | ok
  /-- 1 `E_ILLEGAL` (R101). -/
  | illegal
  /-- 2 `E_RANGE` (R102). -/
  | range
  /-- 3 `E_ROOT` (R103). -/
  | root
  /-- 4 `E_NOFIELD` (R104). -/
  | noField
  /-- 5 `E_NOGEN` (R105). -/
  | noGen
  /-- 6 `E_PHASE` (R106). -/
  | phase
  /-- 7 `E_HALTED` (R107): answered, never stored in `ERR`. -/
  | halted
deriving DecidableEq, Repr

/-- A response `(err, val)` (R42). -/
structure Response where
  err : ErrCode
  val : Word
deriving DecidableEq, Repr

/-- The input signals of the port at one rising edge of `clk` (R44). -/
structure PortIn where
  /-- `rst`: hard reset, active high. -/
  rst : Bool
  /-- `cmd_valid`: the host offers a command word. -/
  cmdValid : Bool
  /-- `cmd`: the command word. -/
  cmd : Word
  /-- `rsp_ready`: the host can take a response. -/
  rspReady : Bool
deriving DecidableEq, Repr

/-- The contents of one storage space (R30): pairs of an entry index and the entry's value, indices strictly
rising and no entry 0, since an unlisted entry reads as 0 (notes/assumptions/1.md). -/
abbrev Storage := List (Nat × Entry)

/-- The four storage spaces of R30. -/
inductive Space where
  | log
  | pow
  | g
  | acc
deriving DecidableEq, Repr

/-- The whole state of the block, and the model's own field `port`. -/
structure State where
  /-- `MSEL` (R10): 0 selects 283, 1 selects 929. -/
  msel : BitVec 1
  /-- `ROOT` (R10): the primitive root the tables were built with. -/
  root : BitVec 10
  /-- `N` (R10): `ecc_length` of the generator held or being loaded, 0 when there is none. -/
  n : BitVec 8
  /-- `GPTR` (R10): index of the next coefficient `GPUSH` writes. -/
  gptr : BitVec 8
  /-- `PHASE` (R10, R12). -/
  phase : Phase
  /-- `ERR` (R10): code of the first failed command since reset. -/
  err : ErrCode
  /-- `ERRCMD` (R10): the word of that command. -/
  errcmd : Word
  /-- `FV` (R11): field valid. -/
  fv : Bool
  /-- `GV` (R11): generator valid. -/
  gv : Bool
  /-- `GLD` (R11): generator load in progress. -/
  gld : Bool
  /-- `LOG[0 .. 1023]` (R15). -/
  log : Storage
  /-- `POW[0 .. 2047]` (R16). -/
  pow : Storage
  /-- `G[0 .. 128]` (R13). -/
  g : Storage
  /-- `ACC[0 .. 127]` (R14). -/
  acc : Storage
  /-- The response not yet delivered: `rsp_valid` with `rsp_err` and `rsp_val`, none while `rsp_valid` is 0 (R44). -/
  rsp : Option Response
  /-- THE MODEL'S OWN: the port signals of the clock edges still to come, the next one first
  (notes/assumptions/2.md). -/
  port : List PortIn
deriving DecidableEq, Repr

/-- Why the machine stops. An error of a command is no fault: it is a response and a next state (R111). -/
inductive Fault where
  /-- A command would reach an entry that its storage space does not have (R30: `G` ends at index 128, `ACC` at 127,
  and no index is negative). Raised by `GPUSH`, `RDG`, `EINIT`, `EDATA`, `EFIN`, `RDCHK`, `RDACC`, and only in states
  that break the invariants of R18, which no run from reset reaches. Safe: the machine stops where the spec gives
  no entry. -/
  | noSuchEntry (space : Space)
deriving DecidableEq, Repr

/-- Why a step has no meaning. -/
inductive Refusal where
  /-- The instruction has no meaning in this model. Raised by no arm: all sixteen are modelled. Safe. -/
  | notModelled (mnemonic : String)
deriving DecidableEq, Repr

/-- What a command answers: a next state, a fault or a refusal. -/
abbrev Result := Host.Outcome State Fault Refusal

/-- The state after reset (R120): every scalar register and flag 0, no response offered, and no port signal yet.
R120 gives the four storage spaces no content; here they list nothing, so every entry reads as 0
(notes/assumptions/1.md). -/
def State.reset : State where
  msel := 0
  root := 0
  n := 0
  gptr := 0
  phase := .idle
  err := .ok
  errcmd := 0
  fv := false
  gv := false
  gld := false
  log := []
  pow := []
  g := []
  acc := []
  rsp := none
  port := []

end Sys2Proof.Machine
end

