-- ==== Sys2Proof/Machine/Ops.lean ====
section
/-! DEFINITION. The named operations over the state: reading and writing storage entries (R29, R30, R33), answering
a command (R42), the one error entry `fail` (R111), the halt (R112), the first failing check of a command (R110), and
the reset, the only way out of the halt (R113, R120). -/

namespace Sys2Proof.Machine

/-! ## Storage (R30) -/

/-- The number of entries a space has (R30). -/
def Space.depth : Space → Nat
  | .log => Config.logDepth
  | .pow => Config.powDepth
  | .g => Config.gDepth
  | .acc => Config.accDepth

/-- `MemRead(space, idx)`: entry `idx` of a space; an unlisted entry reads as 0 (notes/assumptions/1.md). -/
def Storage.read : Storage → Nat → Entry
  | [], _ => 0
  | (k, v) :: m, idx => if idx = k then v else if idx < k then 0 else Storage.read m idx

/-- The cell of an entry in front of the cells of higher index; an entry 0 is not listed. -/
def Storage.cons (idx : Nat) (v : Entry) (m : Storage) : Storage :=
  if v = 0 then m else (idx, v) :: m

/-- `MemWrite(space, idx, v)`. -/
def Storage.write : Storage → Nat → Entry → Storage
  | [], idx, v => Storage.cons idx v []
  | (k, w) :: m, idx, v =>
    if idx < k then Storage.cons idx v ((k, w) :: m)
    else if idx = k then Storage.cons idx v m
    else (k, w) :: Storage.write m idx v

/-- The entries of a list of field values written one after the other from entry `k` up. -/
def Storage.writeFrom (m : Storage) : Nat → List Nat → Storage
  | _, [] => m
  | k, v :: l => (Storage.writeFrom m (k + 1) l).write k (BitVec.ofNat 10 v)

/-- For each value `v` of the list, entry `v` written with the value's place in the list, counted from `j`. -/
def Storage.writePlaces (m : Storage) : Nat → List Nat → Storage
  | _, [] => m
  | j, v :: l => (Storage.writePlaces m (j + 1) l).write v (BitVec.ofNat 10 j)

/-- The entries `[0, n)` as natural numbers. -/
def Storage.span (m : Storage) (n : Nat) : List Nat :=
  (List.range n).map fun k => (m.read k).toNat

/-- The canonical form: indices strictly rising and below `depth`, no listed entry 0. -/
def Storage.wf (depth : Nat) : Storage → Bool
  | [] => true
  | [(k, v)] => decide (k < depth) && decide (v ≠ 0)
  | (k, v) :: (k', v') :: m => decide (k < k') && decide (v ≠ 0) && Storage.wf depth ((k', v') :: m)

/-- The contents of a space. -/
def State.storage (s : State) : Space → Storage
  | .log => s.log
  | .pow => s.pow
  | .g => s.g
  | .acc => s.acc

/-! ## Answers (R42), error entry (R111) and the halt (R112) -/

/-- The state that offers the response `(err, val)` (R42, R44). -/
def State.answer (s : State) (err : ErrCode) (val : Word) : State :=
  { s with rsp := some ⟨err, val⟩ }

/-- The first error of a reset period: its code in `ERR`, the failing word in `ERRCMD` (R111). -/
def State.latch (s : State) (err : ErrCode) (w : Word) : State :=
  { s with err := err, errcmd := w }

/-- `respond v`: the command ends successfully (spec/00_scope.md section 5). -/
def respond (s : State) (val : Word) : Result := .next (s.answer .ok val)

/-- TAKING AN ERROR, `fail E_X` (R111): `ERR` and `ERRCMD` are written, nothing else changes, and the response is
`(E_X, 0)`. `w` is the failing command word. -/
def fail (s : State) (w : Word) (e : ErrCode) : Result := .next ((s.latch e w).answer e 0)

/-- The answer of a halted block to any word but a valid `RST` or `RDR`: `(E_HALTED, 0)`, no state change (R112). -/
def answerHalted (s : State) : Result := .next (s.answer .halted 0)

/-- RETURNING FROM AN ERROR (R113): the scalar registers and flags as a reset leaves them (R82, R120). The storage
keeps its content, which the cleared flags make unreadable (notes/assumptions/4.md). -/
def State.resetRegisters (s : State) : State :=
  { s with
    msel := 0, root := 0, n := 0, gptr := 0
    fv := false, gv := false, gld := false
    phase := .idle
    err := .ok, errcmd := 0 }

/-- The halt test that stands before every command but `RST` and `RDR` with `sel <= 6` (R45, R107). -/
def unlessHalted (s : State) (run : Result) : Result :=
  if s.err = .ok then run else answerHalted s

/-- The error of the first check that fails, in the order written (R110); a check is a condition under which the
command fails, with its error. -/
def firstFailure : List (Bool × ErrCode) → Option ErrCode
  | [] => none
  | (failing, e) :: checks => if failing then some e else firstFailure checks

/-- A command `w` with its checks, in the order of its rule: halted, it answers `E_HALTED`; else the first check that
fails ends it; else it runs (R45, R110). -/
def command (s : State) (w : Word) (checks : List (Bool × ErrCode)) (run : Result) : Result :=
  unlessHalted s <|
    match firstFailure checks with
    | some e => fail s w e
    | none => run

/-- A command reaches only entries that exist (R30); in a state that breaks R18 it may not, and the machine stops
(notes/assumptions/3.md). -/
def ifExists (space : Space) (inside : Bool) (run : Result) : Result :=
  if inside then run else .fault (.noSuchEntry space)

end Sys2Proof.Machine
end

