-- ==== Sys2Proof/Machine/Operands.lean ====
section
/-! DEFINITION. What the operands of the commands are checked against (R102): field values against the modulus in
use, table indices, lengths, indices of coefficients and accumulator entries. Each check is the condition under which
the command FAILS, as its rule writes it. -/

namespace Sys2Proof.Machine

/-- `MOD(msel)` (R2). -/
def modulus (msel : BitVec 1) : Nat := if msel = 0 then Config.mod0 else Config.mod1

/-- `p = MOD(MSEL)` (R2, R22). -/
def State.p (s : State) : Nat := modulus s.msel

/-- The operand is no field value: `x >= p` (R55, R62, R72). -/
def State.notFieldValue (s : State) (x : Nat) : Bool := decide (s.p ≤ x)

/-- The operand has no logarithm to read: `x = 0` or `x >= p` (R53). -/
def State.noLogIndex (s : State) (x : Nat) : Bool := decide (x = 0 ∨ s.p ≤ x)

/-- The operand is no readable exponent: `i >= 2(p-1)` (R54). -/
def State.noPowIndex (s : State) (i : Nat) : Bool := decide (2 * (s.p - 1) ≤ i)

/-- The operand is no legal `ecc_length`: `n < ECC_MIN` or `n > ECC_MAX` (R60, R61). -/
def badLength (n : Nat) : Bool := decide (n < Config.eccMin ∨ Config.eccMax < n)

/-- The operand is the index of no coefficient: `k > N` (R63). -/
def State.noCoefficient (s : State) (k : Nat) : Bool := decide (s.n.toNat < k)

/-- The operand is the index of no accumulator entry: `j >= N` (R74, R75). -/
def State.noAccEntry (s : State) (j : Nat) : Bool := decide (s.n.toNat ≤ j)

/-- The operand selects no field: `msel > 1` (R50). -/
def noModulus (msel : Nat) : Bool := decide (1 < msel)

/-- The operand is no root for modulus `q`: `root = 0` or `root >= q` (R50). -/
def badRoot (q root : Nat) : Bool := decide (root = 0 ∨ q ≤ root)

/-- All the entries `ACC[0 .. N-1]` exist: `N <= 128` (R14, R30). -/
def State.accExists (s : State) : Bool := decide (s.n.toNat ≤ Config.accDepth)

/-- `ACC[N-1]` exists too: `1 <= N` (R72 reads it). -/
def State.accTopExists (s : State) : Bool := decide (1 ≤ s.n.toNat) && s.accExists

end Sys2Proof.Machine
end

