-- ==== Sys2Proof/Machine/Flags.lean ====
section
/-! DEFINITION. The flags and phases as the commands test them and as `RDR` reads them: the state prerequisites of
R104 to R106, the codes of `PHASE` and `ERR`, the register `STATUS` (R21) and the register map of R20. The block has no
arithmetic flag, and no command sets a flag as a by-product of a value it computes (R11). -/

namespace Sys2Proof.Machine

/-- The two bits of `PHASE` (R12). -/
def Phase.code : Phase → BitVec 2
  | .idle => 0
  | .encoding => 1
  | .done => 2

/-- The four bits of an error code (R100). -/
def ErrCode.code : ErrCode → BitVec 4
  | .ok => 0
  | .illegal => 1
  | .range => 2
  | .root => 3
  | .noField => 4
  | .noGen => 5
  | .phase => 6
  | .halted => 7

/-! ## State prerequisites, each as the check that fails (R104 to R106) -/

/-- `FV = 0` fails with `E_NOFIELD` (R104). -/
def State.needsField (s : State) : Bool × ErrCode := (!s.fv, .noField)

/-- `GV = 0` fails with `E_NOGEN` (R105). -/
def State.needsGenerator (s : State) : Bool × ErrCode := (!s.gv, .noGen)

/-- `GLD = 0` fails with `E_PHASE` (R106, `GPUSH`). -/
def State.needsLoad (s : State) : Bool × ErrCode := (!s.gld, .phase)

/-- `PHASE != ENCODING` fails with `E_PHASE` (R106, `EDATA` and `EFIN`). -/
def State.needsEncoding (s : State) : Bool × ErrCode := (decide (s.phase ≠ .encoding), .phase)

/-- `PHASE != DONE` fails with `E_PHASE` (R106, `RDCHK`). -/
def State.needsDone (s : State) : Bool × ErrCode := (decide (s.phase ≠ .done), .phase)

/-- `PHASE = IDLE` fails with `E_PHASE` (R106, `RDACC`). -/
def State.needsEncode (s : State) : Bool × ErrCode := (decide (s.phase = .idle), .phase)

/-! ## The register map (R20) -/

/-- `STATUS` (R21): reserved `[31:12]`, `ERR [11:8]`, reserved `[7:6]`, `MSEL`, `GLD`, `GV`, `FV`, `PHASE [1:0]`. -/
def State.status (s : State) : Word :=
  (0 : BitVec 20) ++ s.err.code ++ (0 : BitVec 2) ++ s.msel
    ++ BitVec.ofBool s.gld ++ BitVec.ofBool s.gv ++ BitVec.ofBool s.fv ++ s.phase.code

/-- `CAP` (R27): bits `[19:16]` the version, `[15:8]` `ECC_MIN`, `[7:0]` `ECC_MAX`, the rest 0. -/
def cap : Word :=
  (0 : BitVec 12) ++ BitVec.ofNat 4 Config.version ++ BitVec.ofNat 8 Config.eccMin ++ BitVec.ofNat 8 Config.eccMax

/-- What `RDR sel` reads (R20, R83); a `sel` above 6 is no register. -/
def State.register (s : State) : Nat → Option Word
  | 0 => some s.status
  | 1 => some (word32 s.p)
  | 2 => some (zext32 s.root)
  | 3 => some (zext32 s.n)
  | 4 => some (zext32 s.gptr)
  | 5 => some s.errcmd
  | 6 => some cap
  | _ => none

end Sys2Proof.Machine
end

