-- ==== Sys2Proof/Machine/Control.lean ====
section
/-! DEFINITION. The control commands `NOP`, `RST`, `RDR` (spec/43_control.md). -/

namespace Sys2Proof.Machine

/-- `NOP` does nothing (R80). -/
def execNop (s : State) : Result :=
  command s (encode .nop) [] (respond s 0)

/-- `RST` puts the block in its reset state, in every state, halted or not (R82). -/
def execRst (s : State) : Result :=
  respond s.resetRegisters 0

/-- `RDR sel` returns scalar register `sel`, halted or not; a `sel` that names no register fails with `E_RANGE`, or is
answered `E_HALTED` when halted (R45, R83). -/
def execRdr (sel : Nat) (s : State) : Result :=
  match s.register sel with
  | some v => respond s v
  | none => unlessHalted s (fail s (encode (.rdr sel)) .range)

end Sys2Proof.Machine
end

