-- ==== Sys2Proof/Machine/Field.lean ====
section
/-! DEFINITION. The field-table commands `BFLD`, `GMUL`, `RDLOG`, `RDPOW` (spec/40_field.md), the table build they
rest on and the multiplication `gf_mul` through the tables. -/

namespace Sys2Proof.Machine

/-- `is_primitive(q, r)` (R56): `r^j mod q != 1` for every `j` in `[1, q-2]`. -/
def isPrimitive (q r : Nat) : Bool :=
  (List.range' 1 (q - 2)).all fun j => decide (r ^ j % q ≠ 1)

/-- The running power `v` of the loop of `BFLD`, over `count` turns (R50). -/
def powersFrom (q root : Nat) : (count : Nat) → (v : Nat) → List Nat
  | 0, _ => []
  | count + 1, v => v :: powersFrom q root count (v * root % q)

/-- The values `v` that the loop of `BFLD` goes through for `j = 0` to `q-2` (R50). -/
def powers (q root : Nat) : List Nat := powersFrom q root (q - 1) 1

/-- `LOG[v] <- j` for each turn of the loop of `BFLD` (R50). -/
def buildLog (q root : Nat) (log : Storage) : Storage :=
  log.writePlaces 0 (powers q root)

/-- `POW[j] <- v` and `POW[j + q - 1] <- v` for each turn of the loop of `BFLD` (R50): the powers twice. -/
def buildPow (q root : Nat) (pow : Storage) : Storage :=
  pow.writeFrom 0 (powers q root ++ powers q root)

/-- `gf_mul(a, b)` (R52): 0 if a factor is 0, else `POW[LOG[a] + LOG[b]]`. -/
def State.gfMul (s : State) (a b : Nat) : Nat :=
  if a = 0 ∨ b = 0 then 0 else (s.pow.read ((s.log.read a).toNat + (s.log.read b).toNat)).toNat

/-- `BFLD msel, root` builds the tables for modulus `MOD(msel)` and discards generator and encode (R50). -/
def execBfld (msel root : Nat) (s : State) : Result :=
  let q := modulus (BitVec.ofNat 1 msel)
  command s (encode (.bfld msel root))
    [(noModulus msel, .range), (badRoot q root, .range), (!isPrimitive q root, .root)] <|
  respond
    { s with
      log := buildLog q root s.log
      pow := buildPow q root s.pow
      msel := BitVec.ofNat 1 msel
      root := BitVec.ofNat 10 root
      fv := true
      gv := false, gld := false, n := 0, gptr := 0
      phase := .idle } 0

/-- `GMUL a, b` returns the field product of `a` and `b` (R55). -/
def execGmul (a b : Nat) (s : State) : Result :=
  command s (encode (.gmul a b))
    [s.needsField, (s.notFieldValue a || s.notFieldValue b, .range)] <|
  respond s (word32 (s.gfMul a b))

/-- `RDLOG x` returns `LOG[x]` (R53). -/
def execRdlog (x : Nat) (s : State) : Result :=
  command s (encode (.rdlog x)) [s.needsField, (s.noLogIndex x, .range)] <|
  respond s (zext32 (s.log.read x))

/-- `RDPOW i` returns `POW[i]` (R54). -/
def execRdpow (i : Nat) (s : State) : Result :=
  command s (encode (.rdpow i)) [s.needsField, (s.noPowIndex i, .range)] <|
  respond s (zext32 (s.pow.read i))

end Sys2Proof.Machine
end

