-- ==== Sys2Proof/Machine/Encoder.lean ====
section
/-! DEFINITION. The division-engine commands `EINIT`, `EDATA`, `EFIN`, `RDCHK`, `RDACC` (spec/42_encoder.md) and the
step of the shift register, R71. -/

namespace Sys2Proof.Machine

/-- `lfsr_step(acc, d)` (R71), with the accumulator `acc[0 .. n-1]` and the coefficients `g[0 .. n-1]` as lists:
`t = (d + acc[n-1]) mod p`, then `acc'[j] = (acc[j-1] + p - gf_mul(t, g[j])) mod p`, where nothing is added for `j = 0`. -/
def State.lfsrStep (s : State) (g acc : List Nat) (d : Nat) : List Nat :=
  let t := (d + acc.getLastD 0) % s.p
  List.zipWith (fun prev c => (prev + s.p - s.gfMul t c) % s.p) (0 :: acc.dropLast) g

/-- The guarded negation of `EFIN`: `p - a` for a nonzero entry, 0 for 0 (R73). -/
def State.negate (s : State) (a : Nat) : Nat := if a ≠ 0 then s.p - a else 0

/-- `EINIT` clears `ACC[0 .. N-1]` and enters phase `ENCODING` (R70). -/
def execEinit (s : State) : Result :=
  command s (encode .einit) [s.needsGenerator] <|
  ifExists .acc s.accExists <|
  respond { s with acc := s.acc.writeFrom 0 (List.replicate s.n.toNat 0), phase := .encoding } 0

/-- `EDATA d` performs one division step with the data codeword `d` (R72). -/
def execEdata (d : Nat) (s : State) : Result :=
  command s (encode (.edata d)) [s.needsEncoding, (s.notFieldValue d, .range)] <|
  ifExists .acc s.accTopExists <|
  respond
    { s with acc := s.acc.writeFrom 0 (s.lfsrStep (s.g.span s.n.toNat) (s.acc.span s.n.toNat) d) } 0

/-- `EFIN` turns the remainder into the check codewords and enters phase `DONE` (R73). -/
def execEfin (s : State) : Result :=
  command s (encode .efin) [s.needsEncoding] <|
  ifExists .acc s.accExists <|
  respond
    { s with acc := s.acc.writeFrom 0 ((s.acc.span s.n.toNat).map s.negate), phase := .done } 0

/-- `RDCHK j` returns check codeword `j` (R74). -/
def execRdchk (j : Nat) (s : State) : Result :=
  command s (encode (.rdchk j)) [s.needsDone, (s.noAccEntry j, .range)] <|
  ifExists .acc (decide (j < Config.accDepth)) <|
  respond s (zext32 (s.acc.read j))

/-- `RDACC j` returns accumulator entry `j` in phase `ENCODING` or `DONE` (R75). -/
def execRdacc (j : Nat) (s : State) : Result :=
  command s (encode (.rdacc j)) [s.needsEncode, (s.noAccEntry j, .range)] <|
  ifExists .acc (decide (j < Config.accDepth)) <|
  respond s (zext32 (s.acc.read j))

end Sys2Proof.Machine
end

