-- ==== Sys2Proof/Machine/Generator.lean ====
section
/-! DEFINITION. The generator-polynomial commands `BGEN`, `GLOAD`, `GPUSH`, `RDG` (spec/41_generator.md) and the two
steps of the construction of R65. A polynomial in the making is the list of its coefficients, index = power of
`x`. -/

namespace Sys2Proof.Machine

/-- One pass of Step A (R60, R65), for the root `r`: `h[k+1] <- (h[k] + gf_mul(h[k+1], r)) mod p` from the top down,
then `h[0] <- gf_mul(h[0], r)`; every entry on the right is the value before the pass. The list grows by the new leading
coefficient. -/
def State.mulRoot (s : State) (h : List Nat) (r : Nat) : List Nat :=
  s.gfMul (h.getD 0 0) r :: List.zipWith (fun low high => (low + s.gfMul high r) % s.p) h (h.tail ++ [0])

/-- Step A (R60, R65): from the polynomial 1, one pass for each root `POW[GEN_FIRST_EXP + i]`, `i` in `[0, n)`. -/
def State.stepA (s : State) (n : Nat) : List Nat :=
  (List.range n).foldl (fun h i => s.mulRoot h (s.pow.read (Config.genFirstExp + i)).toNat) [1]

/-- Step B (R60, R65): the coefficients at odd distance from the leading one, `h[n-1], h[n-3], ...`, each become
`(p - c) mod p`. -/
def State.stepB (s : State) (n : Nat) (h : List Nat) : List Nat :=
  h.mapIdx fun k c => if (n - k) % 2 = 1 then (s.p - c) % s.p else c

/-- The coefficients `G[0 .. n]` that `BGEN n` builds (R60). -/
def State.generator (s : State) (n : Nat) : List Nat := s.stepB n (s.stepA n)

/-- `BGEN n` builds the generator of degree `n` in the current field; a load and an encode are discarded (R60). -/
def execBgen (n : Nat) (s : State) : Result :=
  command s (encode (.bgen n)) [s.needsField, (badLength n, .range)] <|
  respond
    { s with
      g := s.g.writeFrom 0 (s.generator n)
      n := BitVec.ofNat 8 n
      gv := true, gld := false, gptr := 0
      phase := .idle } 0

/-- `GLOAD n` starts the loading of a monic generator of degree `n` (R61). -/
def execGload (n : Nat) (s : State) : Result :=
  command s (encode (.gload n)) [s.needsField, (badLength n, .range)] <|
  respond
    { s with
      n := BitVec.ofNat 8 n
      gptr := 0
      g := s.g.write n 1
      gld := true, gv := false
      phase := .idle } 0

/-- The flags and the pointer after a push: the `N`-th push completes the generator (R62). -/
def State.advanceLoad (s : State) : State :=
  if s.gptr.toNat + 1 = s.n.toNat then { s with gv := true, gld := false, gptr := 0 }
  else { s with gptr := s.gptr + 1 }

/-- `GPUSH v` writes the next coefficient of the generator being loaded, lowest power first (R62). -/
def execGpush (v : Nat) (s : State) : Result :=
  command s (encode (.gpush v)) [s.needsLoad, (s.notFieldValue v, .range)] <|
  ifExists .g (decide (s.gptr.toNat < Config.gDepth)) <|
  respond { s with g := s.g.write s.gptr.toNat (BitVec.ofNat 10 v) }.advanceLoad 0

/-- `RDG k` returns `G[k]` of the valid generator (R63). -/
def execRdg (k : Nat) (s : State) : Result :=
  command s (encode (.rdg k)) [s.needsGenerator, (s.noCoefficient k, .range)] <|
  ifExists .g (decide (k < Config.gDepth)) <|
  respond s (zext32 (s.g.read k))

end Sys2Proof.Machine
end

