-- ==== Sys2Proof/Machine/Dispatch.lean ====
section
/-! DEFINITION. One arm per command: the second half of `step(S, w)` of R45, for a word that decodes. -/

namespace Sys2Proof.Machine

def exec (i : Instr) (s : State) : Host.Outcome State Fault Refusal :=
  match i with
  | .nop => Sys2Proof.Machine.execNop s
  | .rst => Sys2Proof.Machine.execRst s
  | .rdr sel => Sys2Proof.Machine.execRdr sel s
  | .bfld msel root => Sys2Proof.Machine.execBfld msel root s
  | .gmul a b => Sys2Proof.Machine.execGmul a b s
  | .rdlog x => Sys2Proof.Machine.execRdlog x s
  | .rdpow e => Sys2Proof.Machine.execRdpow e s
  | .bgen n => Sys2Proof.Machine.execBgen n s
  | .gload n => Sys2Proof.Machine.execGload n s
  | .gpush v => Sys2Proof.Machine.execGpush v s
  | .rdg k => Sys2Proof.Machine.execRdg k s
  | .einit => Sys2Proof.Machine.execEinit s
  | .edata d => Sys2Proof.Machine.execEdata d s
  | .efin => Sys2Proof.Machine.execEfin s
  | .rdchk j => Sys2Proof.Machine.execRdchk j s
  | .rdacc j => Sys2Proof.Machine.execRdacc j s

end Sys2Proof.Machine
end

