-- ==== Sys2Proof/Machine/Port.lean ====
section
/-! DEFINITION. What the block does at its port (R44): dispatch of an accepted word (R45), the handshake with at most
one command in the block, and hard reset (R120, R121). -/

namespace Sys2Proof.Machine

/-- An illegal word: `E_HALTED` when halted, else `fail E_ILLEGAL` with the word itself (R45, R46, R101). -/
def execIllegal (w : Word) (s : State) : Result :=
  unlessHalted s (fail s w .illegal)

/-- `step(S, w)` of R45: the effect of an accepted word. -/
def stepWord (w : Word) (s : State) : Result :=
  match decode w with
  | .ok i => exec i s
  | .error _ => execIllegal w s

/-- Hard reset (R120, R121): the reset state, and an undelivered response is never delivered. -/
def hardReset (s : State) : State := { s.resetRegisters with rsp := none }

/-- `cmd_ready`: 0 while `rst` is high and while a response is undelivered (R44, R121). -/
def State.cmdReady (s : State) (sig : PortIn) : Bool := !sig.rst && s.rsp.isNone

/-- `rsp_valid`: 0 while `rst` is high, else whether a response is undelivered (R44, R121). -/
def State.rspValid (s : State) (sig : PortIn) : Bool := !sig.rst && s.rsp.isSome

/-- One rising edge of `clk` with the given input signals: a hard reset; or a command accepted, which is executed
whole and whose response is offered from the next edge on; or a response delivered; or nothing (R44). -/
def edge (sig : PortIn) (s : State) : Result :=
  if sig.rst then .next (hardReset s)
  else if s.cmdReady sig && sig.cmdValid then stepWord sig.cmd s
  else if s.rspValid sig && sig.rspReady then .next { s with rsp := none }
  else .next s

/-- The signals of a host that offers the command word `w`. -/
def PortIn.offer (w : Word) : PortIn := { rst := false, cmdValid := true, cmd := w, rspReady := false }

/-- The signals of a host that takes a response. -/
def PortIn.take : PortIn := { rst := false, cmdValid := false, cmd := 0, rspReady := true }

/-- The signals of a host that applies a hard reset. -/
def PortIn.hardReset : PortIn := { rst := true, cmdValid := false, cmd := 0, rspReady := false }

end Sys2Proof.Machine
end

