-- ==== Sys2Proof/Machine/Step.lean ====
section
/-! DEFINITION. One step of the machine: the next edge of the port, and where the model places a command to run. -/

namespace Sys2Proof.Machine

/-- One step: the port signals of the next clock edge act on the block. With no signals left the block waits (R17). -/
def step (s : State) : Host.Outcome State Fault Refusal :=
  match s.port with
  | [] => .next s
  | sig :: rest => edge sig { s with port := rest }

/-- The state in which the host offers, at the very next edge, the command word whose bits are `w` (the bits from
`nbits` on are 0), and no earlier response is undelivered, so that the block accepts it (R44; notes/assumptions/2.md).
What the host does afterwards is as before. -/
def State.withFetchWord (s : State) (nbits w : Nat) : State :=
  { s with rsp := none, port := PortIn.offer (BitVec.ofNat 32 (w % 2 ^ nbits)) :: s.port }

end Sys2Proof.Machine
end

