-- ==== Sys2Proof/Safety.lean ====
section
/-! DEFINITION. The terms claims are stated in: the invariants of R18, what a host can ever learn of the storage
(R19), sequences of commands (R77), and the polynomials of R64 and R76. -/

namespace Sys2Proof.Machine

/-! ## The invariants of R18 -/

/-- The field tables are those of R15 and R16: `ROOT` is a primitive root modulo `p`; `LOG[x]`, for `x` in `[1, p)`, is
a `j` in `[0, p-2]` with `ROOT^j mod p = x`; `POW[i] = ROOT^i mod p` for `i` in `[0, 2(p-1))`. -/
structure FieldOk (s : State) : Prop where
  root_pos : 1 ≤ s.root.toNat
  root_lt : s.root.toNat < s.p
  primitive : isPrimitive s.p s.root.toNat = true
  log_le : ∀ x, 1 ≤ x → x < s.p → (s.log.read x).toNat ≤ s.p - 2
  log_spec : ∀ x, 1 ≤ x → x < s.p → s.root.toNat ^ (s.log.read x).toNat % s.p = x
  pow_spec : ∀ i, i < 2 * (s.p - 1) → (s.pow.read i).toNat = s.root.toNat ^ i % s.p

/-- The four storage spaces are in canonical form and list only entries that exist (R30). -/
abbrev StorageWf (s : State) : Prop := ∀ sp : Space, (s.storage sp).wf sp.depth = true

/-- The invariants of R18, item by item; then what R61, R62 and R107 add so that every step keeps them; then the
canonical form of the four storage spaces. -/
structure Invariant (s : State) : Prop where
  /-- R18 item 1. -/
  generator_field : s.gv = true → s.fv = true
  /-- R18 item 2. -/
  load_field : s.gld = true → s.fv = true ∧ s.gv = false
  /-- R18 item 3. -/
  phase_generator : s.phase ≠ .idle → s.gv = true
  /-- R18 item 4, a generator held or being loaded. -/
  length_range : s.gv = true ∨ s.gld = true → 1 ≤ s.n.toNat ∧ s.n.toNat ≤ Config.eccMax
  /-- R18 item 4, no generator. -/
  length_zero : s.gv = false → s.gld = false → s.n = 0
  /-- R18 item 5, a load in progress. -/
  pointer_lt : s.gld = true → s.gptr.toNat < s.n.toNat
  /-- R18 item 5, no load. -/
  pointer_zero : s.gld = false → s.gptr = 0
  /-- R18 item 6, a field held. -/
  field_ok : s.fv = true → FieldOk s
  /-- R18 item 6, no field. -/
  no_field : s.fv = false → s.msel = 0 ∧ s.root = 0
  /-- R18 item 7. -/
  generator_ok : s.gv = true → (∀ k, k ≤ s.n.toNat → (s.g.read k).toNat < s.p) ∧ s.g.read s.n.toNat = 1
  /-- R18 item 8. -/
  acc_ok : s.phase ≠ .idle → ∀ j, j < s.n.toNat → (s.acc.read j).toNat < s.p
  /-- R18 item 9, not halted. -/
  no_error : s.err = .ok → s.errcmd = 0
  /-- R18 item 9, halted. -/
  error_word : s.err ≠ .ok → s.errcmd ≠ 0
  /-- R18 item 10. -/
  legal_codes : s.phase.code ≠ 3 ∧ s.err.code.toNat < 8
  /-- R107: `E_HALTED` is never stored in `ERR`. -/
  error_stored : s.err ≠ .halted
  /-- R61, R62: the coefficients pushed so far are field values, and the leading one is 1. -/
  load_ok : s.gld = true →
    (∀ k, k < s.gptr.toNat → (s.g.read k).toNat < s.p) ∧ s.g.read s.n.toNat = 1
  /-- The canonical form of the storage, within the entries that exist (R30). -/
  storage_wf : StorageWf s

/-! ## Outcomes named by the rules -/

/-- The state after the command `i` has failed with `e` in a block that was not halted (R111). -/
def State.failed (s : State) (i : Instr) (e : ErrCode) : State :=
  { s with err := e, errcmd := encode i, rsp := some ⟨e, 0⟩ }

/-- The state that differs from `s` only in offering the response `(OK, v)`. -/
def State.answered (s : State) (v : Word) : State := { s with rsp := some ⟨.ok, v⟩ }

/-- Every scalar register and flag has its reset value (R120). -/
structure RegistersReset (s : State) : Prop where
  msel : s.msel = 0
  root : s.root = 0
  n : s.n = 0
  gptr : s.gptr = 0
  phase : s.phase = .idle
  err : s.err = .ok
  errcmd : s.errcmd = 0
  fv : s.fv = false
  gv : s.gv = false
  gld : s.gld = false

/-- At its next edge the block accepts the command word `w`, and the signals `rest` follow (R44; the list of signals is
the model's choice, notes/assumptions/2.md). -/
def Accepts (s : State) (w : Word) (rest : List PortIn) : Prop :=
  ∃ sig : PortIn, s.port = sig :: rest ∧ sig.rst = false ∧ sig.cmdValid = true ∧ sig.cmd = w ∧ s.rsp = none

/-- The phase after the success of a command, from the phase before (R12). -/
def phaseAfter : Instr → Phase → Phase
  | .einit, _ => .encoding
  | .efin, _ => .done
  | .bfld _ _, _ => .idle
  | .bgen _, _ => .idle
  | .gload _, _ => .idle
  | .rst, _ => .idle
  | .nop, ph => ph
  | .rdr _, ph => ph
  | .gmul _ _, ph => ph
  | .rdlog _, ph => ph
  | .rdpow _, ph => ph
  | .gpush _, ph => ph
  | .rdg _, ph => ph
  | .edata _, ph => ph
  | .rdchk _, ph => ph
  | .rdacc _, ph => ph

/-- The errors a command raises of its own, by the column "Raised by" of R100; `E_HALTED` is not among them. -/
def raises : Instr → List ErrCode
  | .nop => []
  | .rst => []
  | .rdr _ => [.range]
  | .bfld _ _ => [.range, .root]
  | .gmul _ _ => [.noField, .range]
  | .rdlog _ => [.noField, .range]
  | .rdpow _ => [.noField, .range]
  | .bgen _ => [.noField, .range]
  | .gload _ => [.noField, .range]
  | .gpush _ => [.phase, .range]
  | .rdg _ => [.noGen, .range]
  | .einit => [.noGen]
  | .edata _ => [.phase, .range]
  | .efin => [.phase]
  | .rdchk _ => [.phase, .range]
  | .rdacc _ => [.phase, .range]

/-- The commands that read an entry or a register (R34). -/
def readsOnly : Instr → Bool
  | .rdr _ => true
  | .rdlog _ => true
  | .rdpow _ => true
  | .rdg _ => true
  | .rdchk _ => true
  | .rdacc _ => true
  | .nop => false
  | .rst => false
  | .bfld _ _ => false
  | .gmul _ _ => false
  | .bgen _ => false
  | .gload _ => false
  | .gpush _ => false
  | .einit => false
  | .edata _ => false
  | .efin => false

/-! ## What a host can learn of the storage (R19) -/

/-- Two states that a host cannot tell apart: the same registers, flags, port and offered response, and the same
content in every entry that R31 makes readable or that a load in progress will make readable. Of any other entry R19
says that it holds no value. -/
structure SameVisible (s t : State) : Prop where
  msel : s.msel = t.msel
  root : s.root = t.root
  n : s.n = t.n
  gptr : s.gptr = t.gptr
  phase : s.phase = t.phase
  err : s.err = t.err
  errcmd : s.errcmd = t.errcmd
  fv : s.fv = t.fv
  gv : s.gv = t.gv
  gld : s.gld = t.gld
  rsp : s.rsp = t.rsp
  port : s.port = t.port
  log : s.fv = true → ∀ x, 1 ≤ x → x < s.p → s.log.read x = t.log.read x
  pow : s.fv = true → ∀ i, i < 2 * (s.p - 1) → s.pow.read i = t.pow.read i
  g : s.gv = true → ∀ k, k ≤ s.n.toNat → s.g.read k = t.g.read k
  gLoaded : s.gld = true → (∀ k, k < s.gptr.toNat → s.g.read k = t.g.read k)
    ∧ s.g.read s.n.toNat = t.g.read s.n.toNat
  acc : s.phase ≠ .idle → ∀ j, j < s.n.toNat → s.acc.read j = t.acc.read j

/-! ## Sequences of commands -/

/-- The commands of a list one after the other, first to last; the first fault or refusal ends it. -/
def execAll : List Instr → State → Result
  | [], s => .next s
  | i :: is, s =>
    match exec i s with
    | .next t => execAll is t
    | .fault f => .fault f
    | .refused r => .refused r

/-- `encode_rs(data)` of R77, for the field and the generator that the block holds. -/
def State.encodeRs (s : State) (data : List Nat) : List Nat :=
  (data.foldl (s.lfsrStep (s.g.span s.n.toNat)) (List.replicate s.n.toNat 0)).map fun a =>
    if a ≠ 0 then s.p - a else 0

/-- The states that some host can bring about from reset: the port signals are any list, and any number of edges has
passed. -/
def Reachable (s : State) : Prop :=
  ∃ (signals : List PortIn) (k : Nat),
    Host.Core.run Sys2Proof.core k { State.reset with port := signals } = .next s

/-! ## Polynomials over the field (R64, R76) -/

open Polynomial in
/-- The polynomial modulo `p` whose coefficient of `x^k`, for `k < n`, is `c k` (spec/00_scope.md section 5). -/
noncomputable def coeffPoly (p n : Nat) (c : Nat → Nat) : (ZMod p)[X] :=
  ∑ k ∈ Finset.range n, C (c k : ZMod p) * X ^ k

open Polynomial in
/-- `g(x)` of R76: the generator held, `G[0 .. N]`. -/
noncomputable def State.generatorPoly (s : State) : (ZMod s.p)[X] :=
  coeffPoly s.p (s.n.toNat + 1) fun k => (s.g.read k).toNat

open Polynomial in
/-- `D(x)` of R76: the first data codeword is the coefficient of the highest power. -/
noncomputable def dataPoly (p : Nat) (data : List Nat) : (ZMod p)[X] :=
  coeffPoly p data.length fun k => data.reverse.getD k 0

open Polynomial in
/-- `genpoly(p, root, n)` of R64: the product of the `x - root^(e0+i)`, `i` in `[0, n)`. -/
noncomputable def genpoly (p root n : Nat) : (ZMod p)[X] :=
  ∏ i ∈ Finset.range n, (X - C ((root : ZMod p) ^ (Config.genFirstExp + i)))

end Sys2Proof.Machine
end

