-- ==== Sys2Proof/Certificates/Slice0/Obligations.lean ====
section
/-! DEFINITION. The statements for the provers, one definition each. Every storage entry is spoken of through
`Storage.read`; an equation `exec i s = .next { s with … }` names everything the command changes, so it is the frame of
the command as well. -/

open Sys2Proof Sys2Proof.Machine

/-! ## Encoding -/

/-- R40, R43: decoding the word of a well-formed command gives the command back, and a word that decodes is the word
of the command it decodes to: no bit of an encoding is dropped. -/
def Obligations.EncodeDecodeAgree : Prop :=
  (∀ i : Instr, WellFormed i → decode (encode i) = .ok i) ∧
  (∀ (w : Word) (i : Instr), decode w = .ok i → WellFormed i ∧ encode i = w)

/-- R43: a word decodes to the command of the row it matches under the row's mask, and a word that matches no row is
illegal. -/
def Obligations.DecodeFollowsOpcodeTable : Prop :=
  ∀ w : Word,
    (∀ row ∈ opcodeTable, w &&& row.mask = row.pattern →
      decode w = .ok (row.command (fieldA w).toNat (fieldB w).toNat)) ∧
    ((∀ row ∈ opcodeTable, w &&& row.mask ≠ row.pattern) → ∃ e, decode w = .error e)

/-- Words written out in spec/95_test_vectors.md and R46, one of every family and four illegal ones. -/
def Obligations.SpecWordsDecode : Prop :=
  decode 0x02005000 = .ok (.rdr 5) ∧ decode 0x10001003 = .ok (.bfld 1 3) ∧
  decode 0x110640C8 = .ok (.gmul 100 200) ∧ decode 0x1373F000 = .ok (.rdpow 1855) ∧
  decode 0x20080000 = .ok (.bgen 128) ∧ decode 0x22395000 = .ok (.gpush 917) ∧
  decode 0x311C5000 = .ok (.edata 453) ∧ decode 0x32000000 = .ok .efin ∧ decode 0x330C8000 = .ok (.rdchk 200) ∧
  decode 0x00000001 = .error .nonzeroUnusedField ∧ decode 0x31005001 = .error .nonzeroUnusedField ∧
  decode 0x03000000 = .error .unassignedOpcode ∧ decode 0xFFFFFFFF = .error .unassignedOpcode

/-- R32: a narrow transport sends the least significant byte first, so `0x10000003` travels as `03 00 00 10`, and the
bytes of every word give the word back. -/
def Obligations.TransportIsLittleEndian : Prop :=
  transportBytes 0x10000003 = [0x03, 0x00, 0x00, 0x10] ∧
  ∀ w : Word, wordOfTransport (transportBytes w) = some w

/-! ## The port and the dispatch -/

/-- R44, R45: where the block accepts a word that decodes to `i`, one step is `exec i`, after the edge's signals are
used up; in particular for a word placed by `withFetchWord`. The port as a list of signals, and that a command is
executed whole at the edge that accepts it, are the model's choice (notes/assumptions/2.md). -/
def Obligations.StepRunsDecodedCommand : Prop :=
  (∀ (s : State) (w : Word) (rest : List PortIn) (i : Instr),
    Accepts s w rest → decode w = .ok i → step s = exec i { s with port := rest }) ∧
  (∀ (s : State) (w : Word) (i : Instr),
    decode w = .ok i → step (s.withFetchWord 32 w.toNat) = exec i { s with rsp := none })

/-- R45, R46, R101: an accepted word that decodes to no command fails with `E_ILLEGAL` in a block that is not halted,
and `ERRCMD` holds the word itself. -/
def Obligations.IllegalWordFails : Prop :=
  ∀ (s : State) (w : Word) (rest : List PortIn) (e : Illegal),
    Accepts s w rest → decode w = .error e → s.err = .ok →
    step s = .next { s with port := rest, err := .illegal, errcmd := w, rsp := some ⟨.illegal, 0⟩ }

/-- R112, R114: while the block is halted, `RST` and `RDR sel` with `sel <= 6` execute normally, and every other accepted word,
legal or illegal, is answered `(E_HALTED, 0)` and has no effect. -/
def Obligations.HaltedBlockAnswersOnlyResetAndReads : Prop :=
  ∀ (s : State) (w : Word) (rest : List PortIn), Accepts s w rest → s.err ≠ .ok →
    (decode w ≠ .ok .rst → (∀ sel, sel ≤ 6 → decode w ≠ .ok (.rdr sel)) →
      step s = .next { s with port := rest, rsp := some ⟨.halted, 0⟩ }) ∧
    (decode w = .ok .rst → ∃ t, step s = .next t ∧ RegistersReset t ∧ t.port = rest ∧ t.rsp = some ⟨.ok, 0⟩) ∧
    (∀ sel, sel ≤ 6 → decode w = .ok (.rdr sel) →
      ∃ v, s.register sel = some v ∧ step s = .next { s with port := rest, rsp := some ⟨.ok, v⟩ })

/-- R121: a hard reset at any time leaves the reset state of R120, and a response not yet delivered is never
delivered; while `rst` is high `cmd_ready` and `rsp_valid` are 0. What the storage holds afterwards is left open here, as
R120 leaves it. -/
def Obligations.HardResetAtAnyTime : Prop :=
  ∀ (s : State) (sig : PortIn) (rest : List PortIn), s.port = sig :: rest → sig.rst = true →
    s.cmdReady sig = false ∧ s.rspValid sig = false ∧
    ∃ log pow g acc, step s = .next { State.reset with log := log, pow := pow, g := g, acc := acc, port := rest }

/-- R44, R127: while a response is undelivered no command is accepted, whatever the host offers; the response goes
exactly when the host is ready; with no response undelivered and no command offered nothing happens; and with no
signal left the block waits (the list of signals is the model's choice, notes/assumptions/2.md). -/
def Obligations.OneCommandInTheBlock : Prop :=
  (∀ (s : State) (sig : PortIn) (rest : List PortIn), s.port = sig :: rest → sig.rst = false →
    (s.rsp ≠ none → sig.rspReady = true → step s = .next { s with port := rest, rsp := none }) ∧
    (s.rsp ≠ none → sig.rspReady = false → step s = .next { s with port := rest }) ∧
    (s.rsp = none → sig.cmdValid = false → step s = .next { s with port := rest })) ∧
  (∀ s : State, s.port = [] → step s = .next s)

/-- R42: every accepted word that gives a next state gives exactly one response, whose value is 0 if it is an error,
and leaves the rest of the port alone. -/
def Obligations.EveryWordIsAnsweredOnce : Prop :=
  ∀ (w : Word) (s t : State), stepWord w s = .next t →
    t.port = s.port ∧ ∃ r, t.rsp = some r ∧ (r.err ≠ .ok → r.val = 0)

/-! ## Errors -/

/-- R111: a word that fails in a block that is not halted writes its code to `ERR` and itself to `ERRCMD`, answers
`(E_X, 0)`, and changes nothing else. -/
def Obligations.FailureChangesOnlyErrorRegisters : Prop :=
  ∀ (w : Word) (s t : State) (r : Response), s.err = .ok → stepWord w s = .next t → t.rsp = some r → r.err ≠ .ok →
    t = { s with err := r.err, errcmd := w, rsp := some ⟨r.err, 0⟩ }

/-- R113: from a halted state a step either keeps everything but the port and the response, `ERR` and `ERRCMD`
among it, or it is a reset, by the `rst` port or by the command `RST`, which clears every register and flag. -/
def Obligations.OnlyResetLeavesTheHalt : Prop :=
  ∀ s t : State, s.err ≠ .ok → step s = .next t →
    t = { s with rsp := t.rsp, port := t.port } ∨
    (RegistersReset t ∧ ((∃ sig rest, s.port = sig :: rest ∧ sig.rst = true) ∨
      ∃ w rest, Accepts s w rest ∧ decode w = .ok .rst))

/-- R104, R105, R106: a command whose state prerequisite is missing fails, whatever its operands are. -/
def Obligations.MissingPrerequisiteFails : Prop :=
  ∀ s : State, s.err = .ok →
    (s.fv = false →
      (∀ a b, exec (.gmul a b) s = .next (s.failed (.gmul a b) .noField)) ∧
      (∀ x, exec (.rdlog x) s = .next (s.failed (.rdlog x) .noField)) ∧
      (∀ i, exec (.rdpow i) s = .next (s.failed (.rdpow i) .noField)) ∧
      (∀ n, exec (.bgen n) s = .next (s.failed (.bgen n) .noField)) ∧
      (∀ n, exec (.gload n) s = .next (s.failed (.gload n) .noField))) ∧
    (s.gv = false →
      (∀ k, exec (.rdg k) s = .next (s.failed (.rdg k) .noGen)) ∧
      exec .einit s = .next (s.failed .einit .noGen)) ∧
    (s.gld = false → ∀ v, exec (.gpush v) s = .next (s.failed (.gpush v) .phase)) ∧
    (s.phase ≠ .encoding →
      (∀ d, exec (.edata d) s = .next (s.failed (.edata d) .phase)) ∧
      exec .efin s = .next (s.failed .efin .phase)) ∧
    (s.phase ≠ .done → ∀ j, exec (.rdchk j) s = .next (s.failed (.rdchk j) .phase)) ∧
    (s.phase = .idle → ∀ j, exec (.rdacc j) s = .next (s.failed (.rdacc j) .phase))

/-- R102: the complete list of operands out of range, each in a state in which the command's prerequisite holds. -/
def Obligations.OperandOutOfRangeFails : Prop :=
  ∀ s : State, s.err = .ok →
    (∀ msel root, 1 < msel ∨ root = 0 ∨ modulus (BitVec.ofNat 1 msel) ≤ root →
      exec (.bfld msel root) s = .next (s.failed (.bfld msel root) .range)) ∧
    (s.fv = true → ∀ a b, s.p ≤ a ∨ s.p ≤ b → exec (.gmul a b) s = .next (s.failed (.gmul a b) .range)) ∧
    (s.fv = true → ∀ x, x = 0 ∨ s.p ≤ x → exec (.rdlog x) s = .next (s.failed (.rdlog x) .range)) ∧
    (s.fv = true → ∀ i, 2 * (s.p - 1) ≤ i → exec (.rdpow i) s = .next (s.failed (.rdpow i) .range)) ∧
    (s.fv = true → ∀ n, n = 0 ∨ 128 < n →
      exec (.bgen n) s = .next (s.failed (.bgen n) .range) ∧
      exec (.gload n) s = .next (s.failed (.gload n) .range)) ∧
    (s.gld = true → ∀ v, s.p ≤ v → exec (.gpush v) s = .next (s.failed (.gpush v) .range)) ∧
    (s.gv = true → ∀ k, s.n.toNat < k → exec (.rdg k) s = .next (s.failed (.rdg k) .range)) ∧
    (s.phase = .encoding → ∀ d, s.p ≤ d → exec (.edata d) s = .next (s.failed (.edata d) .range)) ∧
    (s.phase = .done → ∀ j, s.n.toNat ≤ j → exec (.rdchk j) s = .next (s.failed (.rdchk j) .range)) ∧
    (s.phase ≠ .idle → ∀ j, s.n.toNat ≤ j → exec (.rdacc j) s = .next (s.failed (.rdacc j) .range)) ∧
    (∀ sel, 6 < sel → exec (.rdr sel) s = .next (s.failed (.rdr sel) .range))

/-- R103: a root in range that is not primitive (some power below the last one is 1) fails with `E_ROOT`. -/
def Obligations.NonPrimitiveRootFails : Prop :=
  ∀ (s : State) (msel root j : Nat), s.err = .ok → msel ≤ 1 → 1 ≤ root → root < modulus (BitVec.ofNat 1 msel) →
    1 ≤ j → j ≤ modulus (BitVec.ofNat 1 msel) - 2 → root ^ j % modulus (BitVec.ofNat 1 msel) = 1 →
    exec (.bfld msel root) s = .next (s.failed (.bfld msel root) .root)

/-- R100: the numbers of the codes; and a command answers no error but the ones the table lists for it, and `E_HALTED`
only when halted. -/
def Obligations.CommandsRaiseOnlyTheirErrors : Prop :=
  [ErrCode.ok, .illegal, .range, .root, .noField, .noGen, .phase, .halted].map ErrCode.code = [0, 1, 2, 3, 4, 5, 6, 7] ∧
  ∀ (i : Instr) (s t : State) (r : Response), exec i s = .next t → t.rsp = some r →
    r.err = .ok ∨ (s.err = .ok ∧ r.err ∈ raises i) ∨ (s.err ≠ .ok ∧ r.err = .halted)

/-- R49, R112: once the block is halted, the commands of a pseudo-instruction that are still to come answer
`(E_HALTED, 0)`, each of them, and change nothing. -/
def Obligations.ExpandedCommandsAfterAFailureAreHalted : Prop :=
  ∀ (ps : Pseudo) (rest : List Instr) (s : State), s.err ≠ .ok → rest ≠ [] → rest <:+ ps.expand →
    execAll rest s = .next { s with rsp := some ⟨.halted, 0⟩ } ∧
    ∀ i ∈ rest, exec i s = .next { s with rsp := some ⟨.halted, 0⟩ }

/-! ## Reset and the control commands -/

/-- R120: the scalar registers and flags after reset, and that the block then waits for a command (R17). That waiting
is a step that changes nothing is the model's choice (notes/assumptions/2.md). -/
def Obligations.ResetLeavesEveryRegisterZero : Prop :=
  RegistersReset State.reset ∧ State.reset.rsp = none ∧ step State.reset = .next State.reset

/-- R80: `NOP` in a block that is not halted responds 0 and changes nothing. -/
def Obligations.NopDoesNothing : Prop :=
  ∀ s : State, s.err = .ok → exec .nop s = .next (s.answered 0)

/-- R82: `RST` in every state, halted or not, gives every register and flag its reset value and responds 0, and it is the
only command that leaves the halted state. What the storage holds afterwards is left open here, as R82 leaves it. -/
def Obligations.RstResetsEveryRegister : Prop :=
  (∀ s : State, ∃ log pow g acc, exec .rst s = .next
    { State.reset with log := log, pow := pow, g := g, acc := acc, port := s.port, rsp := some ⟨.ok, 0⟩ }) ∧
  (∀ (i : Instr) (s t : State), s.err ≠ .ok → exec i s = .next t → t.err = .ok → i = .rst)

/-- R21, R83: `RDR 0`, halted or not, responds `STATUS` bit by bit as R21 lays it out, and changes nothing. -/
def Obligations.RdrReadsStatus : Prop :=
  (∀ s : State, ∃ v : Word, exec (.rdr 0) s = .next (s.answered v) ∧
    v.extractLsb' 0 2 = s.phase.code ∧ v.getLsbD 2 = s.fv ∧ v.getLsbD 3 = s.gv ∧ v.getLsbD 4 = s.gld ∧
    v.extractLsb' 5 1 = s.msel ∧ v.extractLsb' 6 2 = 0 ∧ v.extractLsb' 8 4 = s.err.code ∧
    v.extractLsb' 12 20 = 0) ∧
  (Phase.idle.code = 0 ∧ Phase.encoding.code = 1 ∧ Phase.done.code = 2) ∧
  exec (.rdr 0) State.reset = .next (State.reset.answered 0)

/-- R22 to R27, R83: `RDR 1` to `RDR 6`, halted or not, and nothing changes. -/
def Obligations.RdrReadsRegisters : Prop :=
  ∀ s : State,
    (s.msel = 0 → exec (.rdr 1) s = .next (s.answered 283)) ∧
    (s.msel = 1 → exec (.rdr 1) s = .next (s.answered 929)) ∧
    exec (.rdr 2) s = .next (s.answered (word32 s.root.toNat)) ∧
    exec (.rdr 3) s = .next (s.answered (word32 s.n.toNat)) ∧
    exec (.rdr 4) s = .next (s.answered (word32 s.gptr.toNat)) ∧
    exec (.rdr 5) s = .next (s.answered s.errcmd) ∧
    exec (.rdr 6) s = .next (s.answered 0x00010180)

/-! ## The field -/

/-- R56: primitive means that the powers of the root run through every nonzero field value, each once; 3 is primitive in
both fields. -/
def Obligations.PrimitiveRootsRunThroughTheField : Prop :=
  (∀ (msel : BitVec 1) (r : Nat), 1 ≤ r → r < modulus msel →
    (isPrimitive (modulus msel) r = true ↔
      ∀ x, 1 ≤ x → x < modulus msel → ∃ j, j ≤ modulus msel - 2 ∧ r ^ j % modulus msel = x ∧
        ∀ j', j' ≤ modulus msel - 2 → r ^ j' % modulus msel = x → j' = j)) ∧
  isPrimitive 283 3 = true ∧ isPrimitive 929 3 = true

/-- R50, R51: `BFLD` with a primitive root builds both tables, selects the field, and discards generator, load and
encode; `LOG[0]`, the entries of `LOG` from `q` on and those of `POW` from `2(q-1)` on are not written. -/
def Obligations.BfldBuildsTheTables : Prop :=
  ∀ (s : State) (msel root q : Nat), StorageWf s → s.err = .ok → msel ≤ 1 → q = modulus (BitVec.ofNat 1 msel) →
    1 ≤ root → root < q → isPrimitive q root = true →
    ∃ log pow,
      exec (.bfld msel root) s = .next
        { s with
          log := log, pow := pow, msel := BitVec.ofNat 1 msel, root := BitVec.ofNat 10 root, fv := true
          gv := false, gld := false, n := 0, gptr := 0, phase := .idle, rsp := some ⟨.ok, 0⟩ } ∧
      (∀ j, j ≤ q - 2 →
        (pow.read j).toNat = root ^ j % q ∧ (pow.read (j + q - 1)).toNat = root ^ j % q ∧
        (log.read (root ^ j % q)).toNat = j) ∧
      (∀ x, x = 0 ∨ q ≤ x → log.read x = s.log.read x) ∧
      (∀ i, 2 * (q - 1) ≤ i → pow.read i = s.pow.read i)

/-- R28: the field that a successful `BFLD` leaves depends on its operands alone, not on the field held before. -/
def Obligations.BfldForgetsThePast : Prop :=
  ∀ (s t s' t' : State) (msel root : Nat) (v u : Word), StorageWf s → StorageWf t →
    exec (.bfld msel root) s = .next s' → s'.rsp = some ⟨.ok, v⟩ →
    exec (.bfld msel root) t = .next t' → t'.rsp = some ⟨.ok, u⟩ →
    s'.msel = t'.msel ∧ s'.root = t'.root ∧
    (∀ x, 1 ≤ x → x < s'.p → s'.log.read x = t'.log.read x) ∧
    (∀ i, i < 2 * (s'.p - 1) → s'.pow.read i = t'.pow.read i)

/-- R57: with a field held, `gf_mul` is the product modulo `p`, and `GMUL` responds it and changes nothing. -/
def Obligations.GmulIsTheFieldProduct : Prop :=
  ∀ (s : State) (a b : Nat), Invariant s → s.err = .ok → s.fv = true → a < s.p → b < s.p →
    s.gfMul a b = a * b % s.p ∧ exec (.gmul a b) s = .next (s.answered (word32 (a * b % s.p)))

/-- R15, R53: `RDLOG x` responds the one `j` in `[0, p-2]` with `ROOT^j mod p = x`, and changes nothing. -/
def Obligations.RdlogReadsTheDiscreteLog : Prop :=
  ∀ (s : State) (x : Nat), Invariant s → s.err = .ok → s.fv = true → 1 ≤ x → x < s.p →
    ∃ j, exec (.rdlog x) s = .next (s.answered (word32 j)) ∧ j ≤ s.p - 2 ∧ s.root.toNat ^ j % s.p = x ∧
      ∀ j', j' ≤ s.p - 2 → s.root.toNat ^ j' % s.p = x → j' = j

/-- R16, R54: `RDPOW i` responds `ROOT^i mod p`, for both copies of the table, and changes nothing. -/
def Obligations.RdpowReadsThePower : Prop :=
  ∀ (s : State) (i : Nat), Invariant s → s.err = .ok → s.fv = true → i < 2 * (s.p - 1) →
    exec (.rdpow i) s = .next (s.answered (word32 (s.root.toNat ^ i % s.p))) ∧
    (i ≤ s.p - 2 → exec (.rdpow (i + s.p - 1)) s = exec (.rdpow i) s)

/-! ## The generator -/

/-- R64: `BGEN n` leaves in `G[0 .. n]` the coefficients, each in `[0, p)`, of the monic polynomial
`(x - root^0)(x - root^1) ... (x - root^(n-1))` modulo `p`. -/
def Obligations.BgenBuildsTheProductOfTheRoots : Prop :=
  ∀ (s : State) (n : Nat), Invariant s → s.err = .ok → s.fv = true → 1 ≤ n → n ≤ 128 →
    ∃ g,
      exec (.bgen n) s = .next
        { s with
          g := g, n := BitVec.ofNat 8 n, gv := true, gld := false, gptr := 0, phase := .idle
          rsp := some ⟨.ok, 0⟩ } ∧
      (∀ k, k ≤ n → (g.read k).toNat < s.p) ∧ g.read n = 1 ∧ (∀ k, n < k → g.read k = s.g.read k) ∧
      coeffPoly s.p (n + 1) (fun k => (g.read k).toNat) = genpoly s.p s.root.toNat n

/-- R64, R66: the first cases of the table of R64, for root 3 in both fields; they pin the sign convention. -/
def Obligations.BgenFirstCases : Prop :=
  ∀ (s : State) (n : Nat), Invariant s → s.err = .ok → s.fv = true → s.root = 3 → 1 ≤ n → n ≤ 4 →
    ∃ t, exec (.bgen n) s = .next t ∧
      (s.msel = 0 → t.g.span (n + 1) =
        if n = 1 then [282, 1] else if n = 2 then [3, 279, 1] else if n = 3 then [256, 39, 270, 1]
        else [163, 52, 107, 243, 1]) ∧
      (s.msel = 1 → t.g.span (n + 1) =
        if n = 1 then [928, 1] else if n = 2 then [3, 925, 1] else if n = 3 then [902, 39, 916, 1]
        else [729, 778, 390, 889, 1])

/-- R61: `GLOAD n` starts a load, writes only `G[n]`, and discards generator and encode. -/
def Obligations.GloadStartsALoad : Prop :=
  ∀ (s : State) (n : Nat), StorageWf s → s.err = .ok → s.fv = true → 1 ≤ n → n ≤ 128 →
    ∃ g,
      exec (.gload n) s = .next
        { s with
          g := g, n := BitVec.ofNat 8 n, gptr := 0, gld := true, gv := false, phase := .idle
          rsp := some ⟨.ok, 0⟩ } ∧
      ∀ k, g.read k = if k = n then 1 else s.g.read k

/-- R62: `GPUSH v` writes `G[GPTR]` and nothing else of `G`; the `N`-th push completes the generator, any other moves
`GPTR` on by 1. -/
def Obligations.GpushWritesTheNextCoefficient : Prop :=
  ∀ (s : State) (v : Nat), StorageWf s → s.err = .ok → s.gld = true → v < s.p → s.gptr.toNat ≤ 128 →
    ∃ g,
      (∀ k, (g.read k).toNat = if k = s.gptr.toNat then v else (s.g.read k).toNat) ∧
      (s.gptr.toNat + 1 = s.n.toNat → exec (.gpush v) s = .next
        { s with g := g, gv := true, gld := false, gptr := 0, rsp := some ⟨.ok, 0⟩ }) ∧
      (s.gptr.toNat + 1 ≠ s.n.toNat → ∃ next, next.toNat = s.gptr.toNat + 1 ∧ exec (.gpush v) s = .next
        { s with g := g, gptr := next, rsp := some ⟨.ok, 0⟩ })

/-- R49, R61, R62: `LDGEN c0, ..., c(n-1)` leaves the monic generator with exactly these coefficients, lowest power
first, and changes nothing else that R31 makes readable. -/
def Obligations.LdgenLoadsTheCoefficients : Prop :=
  ∀ (s : State) (cs : List Nat), StorageWf s → s.err = .ok → s.fv = true → 1 ≤ cs.length → cs.length ≤ 128 →
    (∀ c ∈ cs, c < s.p) →
    ∃ g,
      execAll (Pseudo.ldgen cs).expand s = .next
        { s with
          g := g, n := BitVec.ofNat 8 cs.length, gptr := 0, gld := false, gv := true, phase := .idle
          rsp := some ⟨.ok, 0⟩ } ∧
      g.span cs.length = cs ∧ g.read cs.length = 1 ∧ ∀ k, cs.length < k → g.read k = s.g.read k

/-- R63: `RDG k` responds `G[k]` for every `k` in `[0, N]`, and changes nothing. -/
def Obligations.RdgReadsTheCoefficient : Prop :=
  ∀ (s : State) (k : Nat), s.err = .ok → s.gv = true → k ≤ s.n.toNat → k ≤ 128 →
    exec (.rdg k) s = .next (s.answered (word32 (s.g.read k).toNat))

/-! ## The division engine -/

/-- R70: `EINIT` clears `ACC[0 .. N-1]`, and no other entry, and enters phase `ENCODING`. -/
def Obligations.EinitClearsTheAccumulator : Prop :=
  ∀ s : State, StorageWf s → s.err = .ok → s.gv = true → s.n.toNat ≤ 128 →
    ∃ acc, exec .einit s = .next { s with acc := acc, phase := .encoding, rsp := some ⟨.ok, 0⟩ } ∧
      ∀ j, acc.read j = if j < s.n.toNat then 0 else s.acc.read j

/-- R71, R72: `EDATA d` replaces `ACC[0 .. N-1]` by `lfsr_step(ACC, d)`, each new entry computed from the entries before
the step and in `[0, p)`, and changes nothing else. -/
def Obligations.EdataIsTheShiftRegisterStep : Prop :=
  ∀ (s : State) (d t : Nat), Invariant s → s.err = .ok → s.phase = .encoding → d < s.p →
    t = (d + (s.acc.read (s.n.toNat - 1)).toNat) % s.p →
    ∃ acc, exec (.edata d) s = .next { s with acc := acc, rsp := some ⟨.ok, 0⟩ } ∧
      (acc.read 0).toNat = (s.p - s.gfMul t (s.g.read 0).toNat) % s.p ∧
      (∀ j, 1 ≤ j → j < s.n.toNat → (acc.read j).toNat =
        ((s.acc.read (j - 1)).toNat + s.p - s.gfMul t (s.g.read j).toNat) % s.p) ∧
      (∀ j, j < s.n.toNat → (acc.read j).toNat < s.p) ∧
      (∀ j, s.n.toNat ≤ j → acc.read j = s.acc.read j)

/-- R73: `EFIN` replaces every nonzero entry of `ACC[0 .. N-1]` by `p` minus it, keeps a zero entry, and enters phase
`DONE`. -/
def Obligations.EfinNegatesTheRemainder : Prop :=
  ∀ s : State, Invariant s → s.err = .ok → s.phase = .encoding →
    ∃ acc, exec .efin s = .next { s with acc := acc, phase := .done, rsp := some ⟨.ok, 0⟩ } ∧
      (∀ j, j < s.n.toNat → (acc.read j).toNat =
        if (s.acc.read j).toNat = 0 then 0 else s.p - (s.acc.read j).toNat) ∧
      (∀ j, s.n.toNat ≤ j → acc.read j = s.acc.read j)

/-- R74, R75: `RDCHK j` in phase `DONE`, and `RDACC j` in phase `ENCODING` or `DONE`, respond `ACC[j]` and change
nothing. -/
def Obligations.AccumulatorReads : Prop :=
  ∀ (s : State) (j : Nat), s.err = .ok → j < s.n.toNat → j < 128 →
    (s.phase = .done → exec (.rdchk j) s = .next (s.answered (word32 (s.acc.read j).toNat))) ∧
    (s.phase ≠ .idle → exec (.rdacc j) s = .next (s.answered (word32 (s.acc.read j).toNat)))

/-- R76, first half: after `EINIT` and any data codewords the accumulator is the remainder of `D(x) x^n` on division by
the generator, modulo `p`. -/
def Obligations.EncodingHoldsTheRemainder : Prop :=
  ∀ (s : State) (data : List Nat), Invariant s → s.err = .ok → s.gv = true → (∀ d ∈ data, d < s.p) →
    ∃ acc,
      execAll (.einit :: data.map .edata) s =
        .next { s with acc := acc, phase := .encoding, rsp := some ⟨.ok, 0⟩ } ∧
      coeffPoly s.p s.n.toNat (fun k => (acc.read k).toNat) =
        (dataPoly s.p data * Polynomial.X ^ s.n.toNat) %ₘ s.generatorPoly

/-- R76, second half: the data codewords followed by the check codewords that `ENCODE` leaves are a multiple of the
generator; there are `N` check codewords, each in `[0, p)`, and nothing else changes. -/
def Obligations.EncodeGivesAMultipleOfTheGenerator : Prop :=
  ∀ (s : State) (data : List Nat), Invariant s → s.err = .ok → s.gv = true → (∀ d ∈ data, d < s.p) →
    ∃ acc,
      execAll (Pseudo.encode data).expand s =
        .next { s with acc := acc, phase := .done, rsp := some ⟨.ok, 0⟩ } ∧
      (∀ j, j < s.n.toNat → (acc.read j).toNat < s.p) ∧
      (∀ j, s.n.toNat ≤ j → acc.read j = s.acc.read j) ∧
      s.generatorPoly ∣
        dataPoly s.p data * Polynomial.X ^ s.n.toNat + coeffPoly s.p s.n.toNat (fun k => (acc.read k).toNat)

/-- R77: the values `ACC[0 .. n-1]` after `EINIT`, one `EDATA` per data codeword and `EFIN` are `encode_rs(data)`. -/
def Obligations.EncodeIsEncodeRs : Prop :=
  ∀ (s : State) (data : List Nat), Invariant s → s.err = .ok → s.gv = true → (∀ d ∈ data, d < s.p) →
    ∃ t, execAll (Pseudo.encode data).expand s = .next t ∧ t.acc.span s.n.toNat = s.encodeRs data ∧
      (s.encodeRs data).length = s.n.toNat ∧ ∀ c ∈ s.encodeRs data, c < s.p

/-- R64, R76: with a generator built by `BGEN n`, data and check codewords together, read as a polynomial, vanish at
every root `ROOT^i`, `i` in `[0, n)`: they are a code word of the Reed-Solomon code. -/
def Obligations.BuiltCodeVanishesAtTheRoots : Prop :=
  ∀ (s : State) (n : Nat) (data : List Nat), Invariant s → s.err = .ok → s.fv = true → 1 ≤ n → n ≤ 128 →
    (∀ d ∈ data, d < s.p) →
    ∃ t, execAll (.bgen n :: (Pseudo.encode data).expand) s = .next t ∧ t.phase = .done ∧ t.n.toNat = n ∧
      ∀ i, i < n → Polynomial.eval ((s.root.toNat : ZMod s.p) ^ i)
        (dataPoly s.p data * Polynomial.X ^ n + coeffPoly s.p n (fun k => (t.acc.read k).toNat)) = 0

/-! ## The whole machine -/

/-- R18 at reset. That the storage lists nothing at reset is the model's choice (notes/assumptions/1.md). -/
def Obligations.ResetSatisfiesTheInvariants : Prop := Invariant State.reset

/-- R18: every step, whatever the port signals are, keeps `Invariant`: the items of R18, `error_stored` (R107), `load_ok`
(R61, R62), and `storage_wf`, the canonical form of the model's own storage (notes/assumptions/1.md). A step is an edge of
the model's list of port signals (notes/assumptions/2.md). -/
def Obligations.EveryStepKeepsTheInvariants : Prop :=
  ∀ s t : State, Invariant s → step s = .next t → Invariant t

/-- R18, run from reset: `Invariant` holds in every state that any sequence of commands and resets reaches. `Invariant`
says more than R18: `error_stored` is R107, `load_ok` is read from R61 and R62, and `storage_wf` is the canonical form of
the model's own storage (notes/assumptions/1.md). The runs are over the model's list of port signals
(notes/assumptions/2.md). -/
def Obligations.ReachableStatesSatisfyTheInvariants : Prop :=
  ∀ s : State, Reachable s → Invariant s

/-- R33, R131: under the invariants the machine never stops: every step, and so every command, gives a next state; in
particular no command reaches an entry that does not exist. -/
def Obligations.NoStepStopsUnderTheInvariants : Prop :=
  ∀ s : State, Invariant s → ∃ t, step s = .next t

/-- R19: what the storage holds outside the guarded entries is never observed: two states under the invariants that a
host cannot tell apart still cannot be told apart after a step. -/
def Obligations.UnwrittenStorageIsNeverObserved : Prop :=
  ∀ s t s' : State, Invariant s → Invariant t → SameVisible s t → step s = .next s' →
    ∃ t', step t = .next t' ∧ SameVisible s' t'

/-- R12: how the commands that succeed change `PHASE`, `EFIN` only from `ENCODING`; a command that does not succeed
keeps it. -/
def Obligations.PhaseTransitions : Prop :=
  ∀ (i : Instr) (s t : State) (r : Response), exec i s = .next t → t.rsp = some r →
    (r.err = .ok → t.phase = phaseAfter i s.phase ∧ (i = .efin → s.phase = .encoding)) ∧
    (r.err ≠ .ok → t.phase = s.phase)

/-- R11: what sets and what clears each flag, and nothing else does. -/
def Obligations.FlagWriters : Prop :=
  ∀ (i : Instr) (s t : State), exec i s = .next t →
    (s.fv = false → t.fv = true → ∃ m r, i = .bfld m r) ∧
    (s.fv = true → t.fv = false → i = .rst) ∧
    (s.gv = false → t.gv = true →
      (∃ n, i = .bgen n) ∨ ((∃ v, i = .gpush v) ∧ s.gptr.toNat + 1 = s.n.toNat)) ∧
    (s.gv = true → t.gv = false → (∃ m r, i = .bfld m r) ∨ (∃ n, i = .gload n) ∨ i = .rst) ∧
    (s.gld = false → t.gld = true → ∃ n, i = .gload n) ∧
    (s.gld = true → t.gld = false →
      ((∃ v, i = .gpush v) ∧ s.gptr.toNat + 1 = s.n.toNat) ∨ (∃ n, i = .bgen n) ∨ (∃ m r, i = .bfld m r) ∨ i = .rst)

/-- R10, R13 to R16, R30: which commands write which registers and which storage space; any other command keeps them.
That `RST` keeps the storage is the model's choice (notes/assumptions/4.md). -/
def Obligations.StorageAndRegisterWriters : Prop :=
  ∀ (i : Instr) (s t : State), exec i s = .next t →
    (t.log ≠ s.log ∨ t.pow ≠ s.pow → ∃ m r, i = .bfld m r) ∧
    (t.g ≠ s.g → (∃ n, i = .bgen n) ∨ (∃ n, i = .gload n) ∨ ∃ v, i = .gpush v) ∧
    (t.acc ≠ s.acc → i = .einit ∨ (∃ d, i = .edata d) ∨ i = .efin) ∧
    (t.msel ≠ s.msel ∨ t.root ≠ s.root → (∃ m r, i = .bfld m r) ∨ i = .rst) ∧
    (t.n ≠ s.n → (∃ n, i = .bgen n) ∨ (∃ n, i = .gload n) ∨ (∃ m r, i = .bfld m r) ∨ i = .rst) ∧
    (t.gptr ≠ s.gptr →
      (∃ n, i = .gload n) ∨ (∃ v, i = .gpush v) ∨ (∃ n, i = .bgen n) ∨ (∃ m r, i = .bfld m r) ∨ i = .rst)

/-- R34: a read command that succeeds changes nothing but the response, and repeated it responds the same. -/
def Obligations.ReadsChangeNothing : Prop :=
  ∀ (i : Instr) (s t : State) (v : Word), readsOnly i = true → exec i s = .next t → t.rsp = some ⟨.ok, v⟩ →
    t = s.answered v ∧ exec i t = .next t
end

