-- ==== Sys2Proof/Laws/Decode.lean ====
section
/-! SUPPORT. The fields of a command word and the word put together from its fields (R40): each undoes the other. -/

namespace Sys2Proof

@[simp] theorem opField_commandWord (op : BitVec 8) (a b : BitVec 12) : opField (commandWord op a b) = op := by
  apply BitVec.eq_of_getLsbD_eq
  intro i hi
  simp only [opField, commandWord, BitVec.getLsbD_extractLsb', BitVec.getLsbD_append, hi, decide_true, Bool.true_and]
  rw [if_neg (by omega), if_neg (by omega)]
  congr 1; omega

@[simp] theorem fieldA_commandWord (op : BitVec 8) (a b : BitVec 12) : fieldA (commandWord op a b) = a := by
  apply BitVec.eq_of_getLsbD_eq
  intro i hi
  simp only [fieldA, commandWord, BitVec.getLsbD_extractLsb', BitVec.getLsbD_append, hi, decide_true, Bool.true_and]
  rw [if_neg (by omega), if_pos (by omega)]
  congr 1; omega

@[simp] theorem fieldB_commandWord (op : BitVec 8) (a b : BitVec 12) : fieldB (commandWord op a b) = b := by
  apply BitVec.eq_of_getLsbD_eq
  intro i hi
  simp only [fieldB, commandWord, BitVec.getLsbD_extractLsb', BitVec.getLsbD_append, hi, decide_true, Bool.true_and]
  rw [if_pos (by omega)]
  congr 1; omega

/-- A word is its three fields and nothing else (R40). -/
theorem commandWord_fields (w : Word) : commandWord (opField w) (fieldA w) (fieldB w) = w := by
  apply BitVec.eq_of_getLsbD_eq
  intro i hi
  simp only [opField, fieldA, fieldB, commandWord, BitVec.getLsbD_extractLsb', BitVec.getLsbD_append]
  split
  · rename_i h; simp [h]
  · split
    · rename_i h1 h2
      rw [show 12 + (i - 12) = i by omega]; simp; omega
    · rename_i h1 h2
      rw [show 24 + (i - 12 - 12) = i by omega]; simp; omega

/-- A word is determined by its fields. -/
theorem word_eq_iff (w : Word) (op : BitVec 8) (a b : BitVec 12) :
    w = commandWord op a b ↔ opField w = op ∧ fieldA w = a ∧ fieldB w = b := by
  constructor
  · rintro rfl; simp
  · rintro ⟨rfl, rfl, rfl⟩; exact (commandWord_fields w).symm

end Sys2Proof
end

