-- ==== Sys2Proof/Laws/Storage.lean ====
section
/-! SUPPORT. The laws of the storage operations: reading after writing (R36), and the canonical form. Each operation
has one lemma that says what every entry reads as afterwards; later proofs cite it and do not unfold the operation. -/

namespace Sys2Proof.Machine

/-! ## The canonical form, and that writing needs it -/

@[simp] theorem Storage.read_nil (a : Nat) : Storage.read [] a = 0 := rfl

theorem Storage.read_lt (k : Nat) (v : Entry) (m : Storage) (a : Nat) (h : a < k) :
    Storage.read ((k, v) :: m) a = 0 := by
  simp only [Storage.read]
  rw [if_neg (by omega), if_pos h]

theorem Storage.read_here (k : Nat) (v : Entry) (m : Storage) : Storage.read ((k, v) :: m) k = v := by
  simp [Storage.read]

theorem Storage.read_gt (k : Nat) (v : Entry) (m : Storage) (a : Nat) (h : k < a) :
    Storage.read ((k, v) :: m) a = Storage.read m a := by
  simp only [Storage.read]
  rw [if_neg (by omega), if_neg (by omega)]

/-- The indices of a storage rise strictly. -/
def Storage.sorted : Storage → Prop
  | [] => True
  | (k, _) :: m => (∀ c ∈ m, k < c.1) ∧ Storage.sorted m

/-- A storage in which every index lies above `a` reads as 0 at `a`. -/
theorem Storage.read_below (m : Storage) (a : Nat) (h : ∀ c ∈ m, a < c.1) : Storage.read m a = 0 := by
  cases m with
  | nil => rfl
  | cons c m => exact Storage.read_lt _ _ _ _ (h c (by simp))

theorem Storage.read_cons_self (a : Nat) (v : Entry) (m : Storage) (h : ∀ c ∈ m, a < c.1) :
    (Storage.cons a v m).read a = v := by
  unfold Storage.cons
  split
  · rename_i hv; rw [Storage.read_below m a h, hv]
  · exact Storage.read_here ..

theorem Storage.read_cons_other (a : Nat) (v : Entry) (m : Storage) (b : Nat) (hb : b ≠ a)
    (h : ∀ c ∈ m, a < c.1) : (Storage.cons a v m).read b = m.read b := by
  unfold Storage.cons
  split
  · rfl
  · rcases Nat.lt_or_gt_of_ne hb with h1 | h1
    · rw [Storage.read_lt _ _ _ _ h1, Storage.read_below m b fun c hc => h1.trans (h c hc)]
    · exact Storage.read_gt _ _ _ _ h1

/-- Every index of a storage after a write is the written one or was there before. -/
theorem Storage.mem_write (m : Storage) (a : Nat) (v : Entry) (c : Nat × Entry) (hc : c ∈ m.write a v) :
    c = (a, v) ∨ c ∈ m := by
  induction m with
  | nil =>
    simp only [Storage.write, Storage.cons] at hc
    split at hc <;> simp_all
  | cons d m ih =>
    obtain ⟨k, w⟩ := d
    simp only [Storage.write] at hc
    split at hc
    · unfold Storage.cons at hc
      split at hc <;> simp_all
    · split at hc
      · unfold Storage.cons at hc
        split at hc <;> simp_all
        tauto
      · rcases List.mem_cons.1 hc with h | h
        · exact .inr (by simp [h])
        · rcases ih h with h | h
          · exact .inl h
          · exact .inr (by simp [h])

/-- Reading after a write (R36): the written entry reads as written, every other entry as before. -/
theorem Storage.read_write (m : Storage) (hm : m.sorted) (a : Nat) (v : Entry) (b : Nat) :
    (m.write a v).read b = if b = a then v else m.read b := by
  induction m with
  | nil =>
    simp only [Storage.write]
    by_cases h : b = a
    · subst h; simp [Storage.read_cons_self]
    · simp [h, Storage.read_cons_other]
  | cons d m ih =>
    obtain ⟨k, w⟩ := d
    obtain ⟨hk, hm⟩ := hm
    simp only [Storage.write]
    split
    · rename_i hak
      have hab : ∀ c ∈ ((k, w) :: m : Storage), a < c.1 := by
        intro c hc
        rcases List.mem_cons.1 hc with h | h
        · simpa [h] using hak
        · exact hak.trans (hk c h)
      by_cases h : b = a
      · subst h; simp [Storage.read_cons_self _ _ _ hab]
      · simp [h, Storage.read_cons_other _ _ _ _ h hab]
    · split
      · rename_i hak
        subst hak
        by_cases h : b = a
        · subst h; simp [Storage.read_cons_self _ _ _ hk]
        · rw [if_neg h, Storage.read_cons_other _ _ _ _ h hk]
          rcases Nat.lt_or_gt_of_ne h with h1 | h1
          · rw [Storage.read_lt _ _ _ _ h1, Storage.read_below m b fun c hc => h1.trans (hk c hc)]
          · exact (Storage.read_gt _ _ _ _ h1).symm
      · rename_i h1 h2
        rcases lt_trichotomy b k with h | h | h
        · rw [Storage.read_lt _ _ _ _ h, if_neg (by omega), Storage.read_lt _ _ _ _ h]
        · subst h; rw [Storage.read_here, if_neg (by omega), Storage.read_here]
        · rw [Storage.read_gt _ _ _ _ h, ih hm, Storage.read_gt _ _ _ _ h]

/-- A write keeps the indices strictly rising. -/
theorem Storage.sorted_write (m : Storage) (hm : m.sorted) (a : Nat) (v : Entry) : (m.write a v).sorted := by
  induction m with
  | nil => simp only [Storage.write, Storage.cons]; split <;> simp [Storage.sorted]
  | cons d m ih =>
    obtain ⟨k, w⟩ := d
    have hm' := hm
    obtain ⟨hk, hm⟩ := hm
    simp only [Storage.write]
    split
    · rename_i hak
      unfold Storage.cons
      split
      · exact hm'
      · refine ⟨fun c hc => ?_, hm'⟩
        rcases List.mem_cons.1 hc with h | h
        · simpa [h] using hak
        · exact hak.trans (hk c h)
    · split
      · rename_i hak
        subst hak
        unfold Storage.cons
        split
        · exact hm
        · exact ⟨hk, hm⟩
      · rename_i h1 h2
        refine ⟨fun c hc => ?_, ih hm⟩
        rcases Storage.mem_write m a v c hc with h | h
        · subst h; show k < a; omega
        · exact hk c h

/-- What `Storage.wf` says: strictly rising indices, all below the depth, and no entry 0 listed. -/
theorem Storage.wf_iff (depth : Nat) (m : Storage) :
    m.wf depth = true ↔ m.sorted ∧ ∀ c ∈ m, c.1 < depth ∧ c.2 ≠ 0 := by
  induction m with
  | nil => simp [Storage.wf, Storage.sorted]
  | cons d m ih =>
    obtain ⟨k, v⟩ := d
    cases m with
    | nil => simp [Storage.wf, Storage.sorted]
    | cons d' m =>
      obtain ⟨k', v'⟩ := d'
      simp only [Storage.wf, Bool.and_eq_true, decide_eq_true_eq, ih]
      constructor
      · rintro ⟨⟨hk, hv⟩, ⟨hs, hs'⟩, hall⟩
        refine ⟨⟨fun c hc => ?_, hs, hs'⟩, fun c hc => ?_⟩
        · rcases List.mem_cons.1 hc with h | h
          · simpa [h] using hk
          · exact hk.trans (hs c h)
        · rcases List.mem_cons.1 hc with h | h
          · subst h; exact ⟨hk.trans (hall _ (List.mem_cons_self ..)).1, hv⟩
          · exact hall c h
      · rintro ⟨⟨hk, hs⟩, hall⟩
        exact ⟨⟨hk _ (List.mem_cons_self ..), (hall _ (List.mem_cons_self ..)).2⟩, hs,
          fun c hc => hall c (List.mem_cons_of_mem _ hc)⟩

theorem Storage.wf_sorted {depth : Nat} {m : Storage} (h : m.wf depth = true) : m.sorted :=
  ((Storage.wf_iff depth m).1 h).1

/-- A write to an entry that exists keeps the canonical form. -/
theorem Storage.wf_write (depth : Nat) (m : Storage) (hm : m.wf depth = true) (a : Nat) (ha : a < depth)
    (v : Entry) : (m.write a v).wf depth = true := by
  rw [Storage.wf_iff] at hm ⊢
  refine ⟨Storage.sorted_write m hm.1 a v, fun c hc => ?_⟩
  by_cases hv : v = 0
  · have : c ∈ m := by
      clear hm
      induction m with
      | nil => simp [Storage.write, Storage.cons, hv] at hc
      | cons d m ih =>
        obtain ⟨k, w⟩ := d
        simp only [Storage.write, Storage.cons, hv, if_true] at hc
        split at hc
        · exact hc
        · split at hc
          · exact List.mem_cons_of_mem _ hc
          · rcases List.mem_cons.1 hc with h | h
            · simp [h]
            · exact List.mem_cons_of_mem _ (ih (by simpa [hv] using h))
    exact hm.2 c this
  · rcases Storage.mem_write m a v c hc with h | h
    · subst h; exact ⟨ha, hv⟩
    · exact hm.2 c h

/-! ## Two storages in canonical form that read alike are equal -/

theorem Storage.ext_read (depth : Nat) (m m' : Storage) (hm : m.wf depth = true) (hm' : m'.wf depth = true)
    (h : ∀ a, m.read a = m'.read a) : m = m' := by
  rw [Storage.wf_iff] at hm hm'
  obtain ⟨hs, hn⟩ := hm
  obtain ⟨hs', hn'⟩ := hm'
  induction m generalizing m' with
  | nil =>
    cases m' with
    | nil => rfl
    | cons d m' =>
      obtain ⟨k, v⟩ := d
      have := h k
      rw [Storage.read_here] at this
      exact absurd this.symm (hn' _ (List.mem_cons_self ..)).2
  | cons d m ih =>
    obtain ⟨k, v⟩ := d
    cases m' with
    | nil =>
      have := h k
      rw [Storage.read_here] at this
      exact absurd this (hn _ (List.mem_cons_self ..)).2
    | cons d' m' =>
      obtain ⟨k', v'⟩ := d'
      have hv := (hn _ (List.mem_cons_self ..)).2
      have hv' := (hn' _ (List.mem_cons_self ..)).2
      have hkk : k = k' := by
        rcases lt_trichotomy k k' with h1 | h1 | h1
        · have := h k
          rw [Storage.read_here, Storage.read_lt _ _ _ _ h1] at this
          exact absurd this hv
        · exact h1
        · have := h k'
          rw [Storage.read_here, Storage.read_lt _ _ _ _ h1] at this
          exact absurd this.symm hv'
      subst hkk
      have hvv : v = v' := by have := h k; rwa [Storage.read_here, Storage.read_here] at this
      subst hvv
      congr 1
      refine ih m' (fun a => ?_) hs.2 (fun c hc => hn c (List.mem_cons_of_mem _ hc)) hs'.2
        (fun c hc => hn' c (List.mem_cons_of_mem _ hc))
      rcases Nat.lt_or_ge k a with h1 | h1
      · have := h a
        rwa [Storage.read_gt _ _ _ _ h1, Storage.read_gt _ _ _ _ h1] at this
      · rw [Storage.read_below m a fun c hc => Nat.lt_of_le_of_lt h1 (hs.1 c hc),
          Storage.read_below m' a fun c hc => Nat.lt_of_le_of_lt h1 (hs'.1 c hc)]

/-! ## `writeFrom` -/

theorem Storage.sorted_writeFrom (m : Storage) (hm : m.sorted) (k : Nat) (l : List Nat) :
    (m.writeFrom k l).sorted := by
  induction l generalizing k with
  | nil => exact hm
  | cons v l ih => exact Storage.sorted_write _ (ih (k + 1)) _ _

/-- After `writeFrom k l` the entries from `k` on are those of `l`, and every other entry is as before. -/
theorem Storage.read_writeFrom (m : Storage) (hm : m.sorted) (k : Nat) (l : List Nat) (a : Nat) :
    (m.writeFrom k l).read a =
      if k ≤ a ∧ a < k + l.length then BitVec.ofNat 10 (l.getD (a - k) 0) else m.read a := by
  induction l generalizing k with
  | nil => rw [if_neg (by simp)]; rfl
  | cons v l ih =>
    rw [Storage.writeFrom, Storage.read_write _ (Storage.sorted_writeFrom m hm (k + 1) l), ih (k + 1)]
    rcases Nat.lt_trichotomy a k with h | h | h
    · rw [if_neg (by omega), if_neg (by omega), if_neg (by omega)]
    · subst h; simp
    · rw [if_neg (by omega)]
      by_cases h2 : a < k + 1 + l.length
      · rw [if_pos ⟨by omega, h2⟩, if_pos ⟨by omega, by simp; omega⟩]
        obtain ⟨d, rfl⟩ : ∃ d, a = k + 1 + d := ⟨a - (k + 1), by omega⟩
        have : k + 1 + d - k = d + 1 := by omega
        simp [this]
      · rw [if_neg (by omega), if_neg (by simp; omega)]

theorem Storage.wf_writeFrom (depth : Nat) (m : Storage) (hm : m.wf depth = true) (k : Nat) (l : List Nat)
    (h : k + l.length ≤ depth) : (m.writeFrom k l).wf depth = true := by
  induction l generalizing k with
  | nil => exact hm
  | cons v l ih =>
    simp only [List.length_cons] at h
    exact Storage.wf_write depth _ (ih (k + 1) (by omega)) k (by omega) _

/-! ## `writePlaces` -/

theorem Storage.sorted_writePlaces (m : Storage) (hm : m.sorted) (j : Nat) (l : List Nat) :
    (m.writePlaces j l).sorted := by
  induction l generalizing j with
  | nil => exact hm
  | cons v l ih => exact Storage.sorted_write _ (ih (j + 1)) _ _

/-- After `writePlaces j l`, an entry that is not in `l` is as before. -/
theorem Storage.read_writePlaces_other (m : Storage) (hm : m.sorted) (j : Nat) (l : List Nat) (a : Nat)
    (h : a ∉ l) : (m.writePlaces j l).read a = m.read a := by
  induction l generalizing j with
  | nil => rfl
  | cons v l ih =>
    simp only [List.mem_cons, not_or] at h
    rw [Storage.writePlaces, Storage.read_write _ (Storage.sorted_writePlaces m hm (j + 1) l), if_neg h.1,
      ih (j + 1) h.2]

/-- After `writePlaces j l` with `l` without repeats, entry `l[i]` reads `j + i`. -/
theorem Storage.read_writePlaces (m : Storage) (hm : m.sorted) (j : Nat) (l : List Nat) (hl : l.Nodup) (i : Nat)
    (hi : i < l.length) : (m.writePlaces j l).read l[i] = BitVec.ofNat 10 (j + i) := by
  induction l generalizing j i with
  | nil => simp at hi
  | cons v l ih =>
    rw [List.nodup_cons] at hl
    rw [Storage.writePlaces, Storage.read_write _ (Storage.sorted_writePlaces m hm (j + 1) l)]
    cases i with
    | zero => simp
    | succ i =>
      have hi' : i < l.length := by simpa using hi
      have hne : l[i] ≠ v := fun h => hl.1 (h ▸ List.getElem_mem hi')
      simp only [List.getElem_cons_succ]
      rw [if_neg hne, ih (j + 1) hl.2 i hi']
      congr 1; omega

theorem Storage.wf_writePlaces (depth : Nat) (m : Storage) (hm : m.wf depth = true) (j : Nat) (l : List Nat)
    (h : ∀ v ∈ l, v < depth) : (m.writePlaces j l).wf depth = true := by
  induction l generalizing j with
  | nil => exact hm
  | cons v l ih =>
    exact Storage.wf_write depth _ (ih (j + 1) fun u hu => h u (List.mem_cons_of_mem _ hu)) v
      (h v (List.mem_cons_self ..)) _

/-! ## `span` -/

@[simp] theorem Storage.length_span (m : Storage) (n : Nat) : (m.span n).length = n := by simp [Storage.span]

theorem Storage.getElem_span (m : Storage) (n k : Nat) (h : k < (m.span n).length) :
    (m.span n)[k] = (m.read k).toNat := by simp [Storage.span]

theorem Storage.getD_span (m : Storage) (n k : Nat) (h : k < n) : (m.span n).getD k 0 = (m.read k).toNat := by
  rw [List.getD_eq_getElem _ _ (by simpa using h), Storage.getElem_span]

end Sys2Proof.Machine
end

