-- ==== Sys2Proof/Laws/Field.lean ====
section
/-! SUPPORT. What the table build and the multiplication do, said once: the powers of a primitive root run through
every nonzero value (R56), the tables that `BFLD` builds are those of R51, and `gf_mul` is the product modulo `p`
(R57). -/

namespace Sys2Proof.Machine

theorem modulus_eq (m : BitVec 1) : modulus m = 283 ∨ modulus m = 929 := by
  unfold modulus; split
  · exact .inl rfl
  · exact .inr rfl

theorem modulus_prime (m : BitVec 1) : (modulus m).Prime := by
  rcases modulus_eq m with h | h <;> rw [h] <;> norm_num

theorem State.p_prime (s : State) : s.p.Prime := modulus_prime s.msel

theorem State.p_le (s : State) : s.p ≤ 929 := by
  unfold State.p; rcases modulus_eq s.msel with h | h <;> omega

theorem State.p_ge (s : State) : 283 ≤ s.p := by
  unfold State.p; rcases modulus_eq s.msel with h | h <;> omega

/-- R56: primitive means that no power below the last one is 1. -/
theorem isPrimitive_iff (q r : Nat) : isPrimitive q r = true ↔ ∀ j, 1 ≤ j → j ≤ q - 2 → r ^ j % q ≠ 1 := by
  simp only [isPrimitive, List.all_eq_true, List.mem_range'_1, decide_eq_true_eq]
  constructor
  · intro h j h1 h2; exact h j ⟨h1, by omega⟩
  · rintro h j ⟨h1, h2⟩; exact h j h1 (by omega)

@[simp] theorem length_powersFrom (q r k v : Nat) : (powersFrom q r k v).length = k := by
  induction k generalizing v with
  | zero => rfl
  | succ k ih => simp [powersFrom, ih]

@[simp] theorem length_powers (q r : Nat) : (powers q r).length = q - 1 := length_powersFrom ..

theorem getElem_powersFrom (q r k v : Nat) (hv : v < q) (i : Nat) (hi : i < (powersFrom q r k v).length) :
    (powersFrom q r k v)[i] = v * r ^ i % q := by
  induction k generalizing v i with
  | zero => simp [powersFrom] at hi
  | succ k ih =>
    cases i with
    | zero => simp [powersFrom, Nat.mod_eq_of_lt hv]
    | succ i =>
      simp only [powersFrom, List.getElem_cons_succ]
      rw [ih _ (Nat.mod_lt _ (by omega)), Nat.mod_mul_mod, pow_succ', ← mul_assoc]

/-- The loop of `BFLD` goes through the powers of the root (R50). -/
theorem getElem_powers (q r : Nat) (hq : 1 < q) (i : Nat) (hi : i < (powers q r).length) :
    (powers q r)[i] = r ^ i % q := by
  rw [show (powers q r)[i] = 1 * r ^ i % q from getElem_powersFrom q r (q - 1) 1 hq i hi, one_mul]

/-- A root below a prime modulus is coprime to it. -/
theorem root_coprime {q r : Nat} (hq : q.Prime) (h1 : 1 ≤ r) (h2 : r < q) : Nat.Coprime q r :=
  (Nat.Prime.coprime_iff_not_dvd hq).2 fun h => by have := Nat.le_of_dvd h1 h; omega

/-- Every power of the root is a nonzero field value. -/
theorem root_pow_pos {q r : Nat} (hq : q.Prime) (h1 : 1 ≤ r) (h2 : r < q) (i : Nat) : 1 ≤ r ^ i % q := by
  by_contra h
  have h0 : r ^ i % q = 0 := by omega
  have := (Nat.Prime.coprime_iff_not_dvd hq).1 ((root_coprime hq h1 h2).pow_right i)
  exact this (Nat.dvd_of_mod_eq_zero h0)

/-- Two powers of a primitive root with exponents in `[0, q-2]` are equal only if the exponents are (R56). -/
theorem primitive_pow_inj {q r : Nat} (hq : q.Prime) (h1 : 1 ≤ r) (h2 : r < q) (hp : isPrimitive q r = true)
    {i j : Nat} (hi : i ≤ q - 2) (hj : j ≤ q - 2) (h : r ^ i % q = r ^ j % q) : i = j := by
  have key : ∀ a b : Nat, a < b → b ≤ q - 2 → r ^ a % q ≠ r ^ b % q := by
    intro a b hab hb he
    have hm : r ^ a * 1 ≡ r ^ a * r ^ (b - a) [MOD q] := by
      rw [mul_one, ← pow_add, show a + (b - a) = b by omega]; exact he
    have h3 : 1 % q = r ^ (b - a) % q :=
      Nat.ModEq.cancel_left_of_coprime ((root_coprime hq h1 h2).pow_right a) hm
    rw [Nat.mod_eq_of_lt hq.one_lt] at h3
    exact (isPrimitive_iff q r).1 hp (b - a) (by omega) (by omega) h3.symm
  rcases lt_trichotomy i j with hl | hl | hl
  · exact absurd h (key i j hl hj)
  · exact hl
  · exact absurd h.symm (key j i hl hi)

theorem powers_nodup {q r : Nat} (hq : q.Prime) (h1 : 1 ≤ r) (h2 : r < q) (hp : isPrimitive q r = true) :
    (powers q r).Nodup := by
  rw [List.nodup_iff_injective_getElem]
  rintro ⟨i, hi⟩ ⟨j, hj⟩ h
  simp only [getElem_powers q r hq.one_lt] at h
  simp only [length_powers] at hi hj
  have := primitive_pow_inj hq h1 h2 hp (by omega) (by omega) h
  simpa using this

theorem mem_powers_range {q r : Nat} (hq : q.Prime) (h1 : 1 ≤ r) (h2 : r < q) {x : Nat}
    (hx : x ∈ powers q r) : 1 ≤ x ∧ x < q := by
  obtain ⟨i, hi, rfl⟩ := List.getElem_of_mem hx
  rw [getElem_powers q r hq.one_lt]
  exact ⟨root_pow_pos hq h1 h2 i, Nat.mod_lt _ hq.pos⟩

/-- The powers of a primitive root are all of `1, ..., q-1` (R56). -/
theorem mem_powers_iff {q r : Nat} (hq : q.Prime) (h1 : 1 ≤ r) (h2 : r < q) (hp : isPrimitive q r = true)
    (x : Nat) : x ∈ powers q r ↔ 1 ≤ x ∧ x < q := by
  refine ⟨mem_powers_range hq h1 h2, fun hx => ?_⟩
  have hsub : (powers q r).toFinset ⊆ Finset.Ico 1 q := by
    intro y hy
    have := mem_powers_range hq h1 h2 (List.mem_toFinset.1 hy)
    simpa using this
  have hcard : (powers q r).toFinset.card = q - 1 := by
    rw [List.toFinset_card_of_nodup (powers_nodup hq h1 h2 hp), length_powers]
  have := Finset.eq_of_subset_of_card_le hsub (by rw [hcard, Nat.card_Ico])
  rw [← List.mem_toFinset, this]
  simpa using hx

/-- The last power of a root is 1 (Fermat), so the second copy of the antilog table continues the first. -/
theorem root_pow_last {q r : Nat} (hq : q.Prime) (h1 : 1 ≤ r) (h2 : r < q) (i : Nat) :
    r ^ (i + (q - 1)) % q = r ^ i % q := by
  have h : r ^ (q - 1) ≡ 1 [MOD q] := by
    have := Nat.ModEq.pow_totient ((root_coprime hq h1 h2).symm)
    rwa [Nat.totient_prime hq] at this
  have := (Nat.ModEq.refl (r ^ i)).mul h
  rw [mul_one, ← pow_add] at this
  exact this

theorem toNat_entry {v : Nat} (h : v < 1024) : (BitVec.ofNat 10 v : Entry).toNat = v := by
  rw [BitVec.toNat_ofNat, Nat.mod_eq_of_lt (by simpa using h)]

/-- The antilog table after the build (R51): the powers, twice; every other entry is as before. -/
theorem read_buildPow {q r : Nat} (hq : q.Prime) (h1 : 1 ≤ r) (h2 : r < q) (m : Storage)
    (hm : m.sorted) (i : Nat) :
    (buildPow q r m).read i = if i < 2 * (q - 1) then BitVec.ofNat 10 (r ^ i % q) else m.read i := by
  rw [buildPow, Storage.read_writeFrom m hm]
  simp only [List.length_append, length_powers, Nat.zero_le, true_and, Nat.zero_add, Nat.sub_zero]
  rw [show q - 1 + (q - 1) = 2 * (q - 1) by omega]
  split
  · rename_i hi
    congr 1
    rcases Nat.lt_or_ge i (q - 1) with h | h
    · rw [List.getD_append _ _ _ _ (by simpa using h), List.getD_eq_getElem _ _ (by simpa using h),
        getElem_powers q r hq.one_lt]
    · rw [List.getD_append_right _ _ _ _ (by simpa using h), length_powers,
        List.getD_eq_getElem _ _ (by simp; omega), getElem_powers q r hq.one_lt]
      conv_rhs => rw [show i = i - (q - 1) + (q - 1) by omega]
      exact (root_pow_last hq h1 h2 _).symm
  · rfl

/-- The log table after the build (R51): entry `root^j mod q` reads `j`. -/
theorem read_buildLog {q r : Nat} (hq : q.Prime) (h1 : 1 ≤ r) (h2 : r < q) (hp : isPrimitive q r = true)
    (m : Storage) (hm : m.sorted) (j : Nat) (hj : j ≤ q - 2) :
    (buildLog q r m).read (r ^ j % q) = BitVec.ofNat 10 j := by
  have hlt : j < (powers q r).length := by have := hq.two_le; rw [length_powers]; omega
  have := Storage.read_writePlaces m hm 0 (powers q r) (powers_nodup hq h1 h2 hp) j hlt
  rwa [getElem_powers q r hq.one_lt, Nat.zero_add] at this

/-- The build leaves `LOG[0]` and the entries from `q` on as they were (R50, R15). -/
theorem read_buildLog_other {q r : Nat} (hq : q.Prime) (h1 : 1 ≤ r) (h2 : r < q) (m : Storage) (hm : m.sorted)
    (x : Nat) (hx : x = 0 ∨ q ≤ x) : (buildLog q r m).read x = m.read x :=
  Storage.read_writePlaces_other m hm 0 _ x fun h => by
    have := mem_powers_range hq h1 h2 h; omega

theorem wf_buildPow {q r : Nat} (hq : q ≤ 929) (m : Storage)
    (hm : m.wf Config.powDepth = true) : (buildPow q r m).wf Config.powDepth = true :=
  Storage.wf_writeFrom _ _ hm _ _ (by simp [Config.powDepth]; omega)

theorem wf_buildLog {q r : Nat} (hq : q.Prime) (hq' : q ≤ 929) (h1 : 1 ≤ r) (h2 : r < q) (m : Storage)
    (hm : m.wf Config.logDepth = true) : (buildLog q r m).wf Config.logDepth = true :=
  Storage.wf_writePlaces _ _ hm _ _ fun v hv => by
    have := mem_powers_range hq h1 h2 hv
    simp only [Config.logDepth]; omega

/-- The tables that a build leaves are those of R15 and R16: what "`FV = 1`" means (R51). -/
theorem fieldOk_build (s : State) (q r : Nat) (hp : s.p = q) (hr : s.root.toNat = r) (h1 : 1 ≤ r) (h2 : r < q)
    (hprim : isPrimitive q r = true) (log pow : Storage) (hlog : log.sorted) (hpow : pow.sorted)
    (hl : s.log = buildLog q r log) (hw : s.pow = buildPow q r pow) : FieldOk s := by
  have hq : q.Prime := hp ▸ s.p_prime
  have hle : q ≤ 929 := hp ▸ s.p_le
  have hlogs : ∀ x, 1 ≤ x → x < q → ∃ j, j ≤ q - 2 ∧ (s.log.read x).toNat = j ∧ r ^ j % q = x := by
    intro x hx1 hx2
    obtain ⟨j, hj, rfl⟩ := List.getElem_of_mem ((mem_powers_iff hq h1 h2 hprim x).2 ⟨hx1, hx2⟩)
    rw [getElem_powers q r hq.one_lt]
    rw [length_powers] at hj
    refine ⟨j, by omega, ?_, rfl⟩
    rw [hl, read_buildLog hq h1 h2 hprim log hlog j (by omega), toNat_entry (by omega)]
  constructor
  · omega
  · omega
  · rw [hp, hr]; exact hprim
  · intro x hx1 hx2
    obtain ⟨j, hj, hr', -⟩ := hlogs x hx1 (hp ▸ hx2)
    rw [hr', hp]; exact hj
  · intro x hx1 hx2
    obtain ⟨j, -, hr', hj'⟩ := hlogs x hx1 (hp ▸ hx2)
    rw [hr', hp, hr]; exact hj'
  · intro i hi
    rw [hp] at hi ⊢
    rw [hw, read_buildPow hq h1 h2 pow hpow, if_pos hi, hr]
    exact toNat_entry ((Nat.mod_lt _ hq.pos).trans_le (by omega))

/-- `gf_mul` is the product modulo `p` (R57). -/
theorem gfMul_eq {s : State} (h : FieldOk s) {a b : Nat} (ha : a < s.p) (hb : b < s.p) :
    s.gfMul a b = a * b % s.p := by
  unfold State.gfMul
  split
  · rename_i h0
    rcases h0 with rfl | rfl <;> simp
  · rename_i h0
    push Not at h0
    have hla := h.log_le a (by omega) ha
    have hlb := h.log_le b (by omega) hb
    have hp := s.p_ge
    rw [h.pow_spec _ (by omega), pow_add, Nat.mul_mod, h.log_spec a (by omega) ha, h.log_spec b (by omega) hb]

theorem gfMul_lt {s : State} (h : FieldOk s) {a b : Nat} (ha : a < s.p) (hb : b < s.p) : s.gfMul a b < s.p := by
  rw [gfMul_eq h ha hb]
  exact Nat.mod_lt _ s.p_prime.pos

end Sys2Proof.Machine
end

