-- ==== Sys2Proof/Laws/Encoder.lean ====
section
/-! SUPPORT. What the step of the shift register and the final negation compute, entry by entry (R71, R73). -/

namespace Sys2Proof.Machine

variable {s : State}

@[simp] theorem length_lfsrStep (g acc : List Nat) (d : Nat) (h : g.length = acc.length) (hne : acc ≠ []) :
    (s.lfsrStep g acc d).length = acc.length := by
  have : 0 < acc.length := List.length_pos_iff.2 hne
  simp only [State.lfsrStep, List.length_zipWith, List.length_cons, List.length_dropLast, h]
  omega

/-- R71: the new entry 0. -/
theorem getD_lfsrStep_zero (g acc : List Nat) (d : Nat) (h : g.length = acc.length) (hne : acc ≠ []) :
    (s.lfsrStep g acc d).getD 0 0 =
      (s.p - s.gfMul ((d + acc.getLastD 0) % s.p) (g.getD 0 0)) % s.p := by
  have hl := length_lfsrStep (s := s) g acc d h hne
  have hp : 0 < acc.length := List.length_pos_iff.2 hne
  rw [List.getD_eq_getElem _ _ (by omega)]
  simp only [State.lfsrStep, List.getElem_zipWith, List.getElem_cons_zero, Nat.zero_add]
  rw [List.getD_eq_getElem _ _ (by omega)]

/-- R71: the new entry `j`, for `j` in `[1, n)`. -/
theorem getD_lfsrStep_succ (g acc : List Nat) (d : Nat) (h : g.length = acc.length) (j : Nat)
    (hj : j + 1 < acc.length) :
    (s.lfsrStep g acc d).getD (j + 1) 0 =
      (acc.getD j 0 + s.p - s.gfMul ((d + acc.getLastD 0) % s.p) (g.getD (j + 1) 0)) % s.p := by
  have hne : acc ≠ [] := by rintro rfl; simp at hj
  have hl := length_lfsrStep (s := s) g acc d h hne
  rw [List.getD_eq_getElem _ _ (by omega)]
  simp only [State.lfsrStep, List.getElem_zipWith, List.getElem_cons_succ, List.getElem_dropLast]
  rw [List.getD_eq_getElem _ _ (by omega), List.getD_eq_getElem _ _ (by omega)]

/-- Every entry after a step is a field value. -/
theorem lfsrStep_lt (g acc : List Nat) (d : Nat) (x : Nat) (hx : x ∈ s.lfsrStep g acc d) : x < s.p := by
  obtain ⟨i, hi, rfl⟩ := List.getElem_of_mem hx
  simp only [State.lfsrStep, List.getElem_zipWith]
  exact Nat.mod_lt _ s.p_prime.pos

/-- The last entry of a span is the entry of the highest index. -/
theorem getLastD_span (m : Storage) (n : Nat) (hn : 1 ≤ n) : (m.span n).getLastD 0 = (m.read (n - 1)).toNat := by
  obtain ⟨k, rfl⟩ : ∃ k, n = k + 1 := ⟨n - 1, by omega⟩
  simp [Storage.span, List.range_succ]

/-- The negation of `EFIN` keeps field values (R73). -/
theorem negate_lt {a : Nat} (_h : a < s.p) : s.negate a < s.p := by
  have := s.p_prime.pos
  unfold State.negate; split <;> omega

end Sys2Proof.Machine
end

