-- ==== Sys2Proof/Laws/Generator.lean ====
section
/-! SUPPORT. What the construction of a generator keeps (R60, R65): the number of coefficients, their range `[0, p)`, and
the leading coefficient 1. -/

namespace Sys2Proof.Machine

variable {s : State}

@[simp] theorem length_mulRoot (h : List Nat) (r : Nat) (hne : h ≠ []) : (s.mulRoot h r).length = h.length + 1 := by
  have : 0 < h.length := List.length_pos_iff.2 hne
  simp only [State.mulRoot, List.length_cons, List.length_zipWith, List.length_append, List.length_tail,
    List.length_nil]
  omega

theorem mulRoot_ne_nil (h : List Nat) (r : Nat) : s.mulRoot h r ≠ [] := by simp [State.mulRoot]

/-- The constant term after a pass (R60). -/
theorem getD_mulRoot_zero (h : List Nat) (r : Nat) : (s.mulRoot h r).getD 0 0 = s.gfMul (h.getD 0 0) r := rfl

theorem gfMul_zero_left (b : Nat) : s.gfMul 0 b = 0 := by simp [State.gfMul]

/-- Every other coefficient after a pass: `(h[k] + gf_mul(h[k+1], r)) mod p`, where a coefficient that is not there
counts as 0 (R60). -/
theorem getD_mulRoot_succ (h : List Nat) (r k : Nat) (hk : k < h.length) :
    (s.mulRoot h r).getD (k + 1) 0 = (h.getD k 0 + s.gfMul (h.getD (k + 1) 0) r) % s.p := by
  have hlen : (h.tail ++ [0]).length = h.length := by simp; omega
  simp only [State.mulRoot, List.getD_cons_succ]
  rw [List.getD_eq_getElem _ _ (by rw [List.length_zipWith, hlen]; omega), List.getElem_zipWith,
    List.getD_eq_getElem _ _ hk]
  congr 3
  rw [List.getElem_append]
  split
  · rename_i h1
    rw [List.getElem_tail, List.getD_eq_getElem]
  · rename_i h1
    simp only [List.length_tail] at h1
    rw [List.getD_eq_default _ _ (by omega)]
    simp

/-- A pass keeps the coefficients field values. -/
theorem mulRoot_lt (hf : FieldOk s) (h : List Nat) (hne : h ≠ []) (r : Nat) (hr : r < s.p)
    (hh : ∀ k, h.getD k 0 < s.p) (k : Nat) : (s.mulRoot h r).getD k 0 < s.p := by
  cases k with
  | zero => rw [getD_mulRoot_zero]; exact gfMul_lt hf (hh 0) hr
  | succ k =>
    by_cases hk : k < h.length
    · rw [getD_mulRoot_succ h r k hk]; exact Nat.mod_lt _ s.p_prime.pos
    · rw [List.getD_eq_default _ _ (by rw [length_mulRoot h r hne]; omega)]; exact s.p_prime.pos

theorem stepA_zero : s.stepA 0 = [1] := rfl

theorem stepA_succ (n : Nat) :
    s.stepA (n + 1) = s.mulRoot (s.stepA n) (s.pow.read (Config.genFirstExp + n)).toNat := by
  simp [State.stepA, List.range_succ]

theorem stepA_ne_nil (n : Nat) : s.stepA n ≠ [] := by
  cases n with
  | zero => simp [stepA_zero]
  | succ n => rw [stepA_succ]; exact mulRoot_ne_nil _ _

@[simp] theorem length_stepA (n : Nat) : (s.stepA n).length = n + 1 := by
  induction n with
  | zero => rfl
  | succ n ih => rw [stepA_succ, length_mulRoot _ _ (stepA_ne_nil n), ih]

/-- The root that pass `i` multiplies in, `POW[GEN_FIRST_EXP + i] = ROOT^i mod p` (R60). -/
theorem root_of_pass (hf : FieldOk s) {i : Nat} (hi : i < 2 * (s.p - 1)) :
    (s.pow.read (Config.genFirstExp + i)).toNat = s.root.toNat ^ i % s.p := by
  rw [Config.genFirstExp, Nat.zero_add]; exact hf.pow_spec i hi

/-- Step A gives field values, with leading coefficient 1. -/
theorem stepA_spec (hf : FieldOk s) (n : Nat) (hn : n ≤ 128) :
    (∀ k, (s.stepA n).getD k 0 < s.p) ∧ (s.stepA n).getD n 0 = 1 := by
  have hp := s.p_ge
  induction n with
  | zero =>
    refine ⟨fun k => ?_, rfl⟩
    rw [stepA_zero]
    cases k with
    | zero => exact s.p_prime.one_lt
    | succ k => exact s.p_prime.pos
  | succ n ih =>
    obtain ⟨h1, h2⟩ := ih (by omega)
    rw [stepA_succ]
    have hr : (s.pow.read (Config.genFirstExp + n)).toNat < s.p := by
      rw [root_of_pass hf (by omega)]; exact Nat.mod_lt _ s.p_prime.pos
    refine ⟨mulRoot_lt hf _ (stepA_ne_nil n) _ hr h1, ?_⟩
    rw [getD_mulRoot_succ _ _ _ (by simp), h2, List.getD_eq_default _ _ (by simp), gfMul_zero_left,
      Nat.add_zero, Nat.mod_eq_of_lt s.p_prime.one_lt]

@[simp] theorem length_generator (n : Nat) : (s.generator n).length = n + 1 := by
  simp [State.generator, State.stepB]

/-- Step B negates the coefficients at odd distance from the leading one and keeps the others (R65). -/
theorem getD_generator (n k : Nat) (hk : k ≤ n) :
    (s.generator n).getD k 0 =
      if (n - k) % 2 = 1 then (s.p - (s.stepA n).getD k 0) % s.p else (s.stepA n).getD k 0 := by
  have h : k < (s.stepA n).length := by simp; omega
  simp only [State.generator, State.stepB]
  rw [List.getD_eq_getElem _ _ (by simpa using h), List.getElem_mapIdx, List.getD_eq_getElem _ _ h]

/-- The generator that `BGEN` builds has field values for coefficients and is monic (R60, R64). -/
theorem generator_spec (hf : FieldOk s) (n : Nat) (hn : n ≤ 128) :
    (∀ k, k ≤ n → (s.generator n).getD k 0 < s.p) ∧ (s.generator n).getD n 0 = 1 := by
  obtain ⟨h1, h2⟩ := stepA_spec hf n hn
  refine ⟨fun k hk => ?_, ?_⟩
  · rw [getD_generator n k hk]
    split
    · exact Nat.mod_lt _ s.p_prime.pos
    · exact h1 k
  · rw [getD_generator n n le_rfl, Nat.sub_self, if_neg (by omega), h2]

end Sys2Proof.Machine
end

