-- ==== Sys2Proof/Laws/PerInstr.lean ====
section
/-! SUPPORT. A family of statements about every command as syntax, one lemma per constructor: the word of a command
holds its opcode in `w[31:24]`, its first operand in `w[23:12]` and its second in `w[11:0]`, and 0 in a field that the
command does not use (R40, R41, R43). -/

namespace Sys2Proof.Laws.EncodeFields

/-- The three fields of the word of a well-formed command. -/
def Statement (i : Instr) : Prop :=
  WellFormed i → opField (encode i) = opcode i ∧
    (fieldA (encode i)).toNat = i.operands.getD 0 0 ∧ (fieldB (encode i)).toNat = i.operands.getD 1 0

/-- What is the same for all: an operand that fits its field is read back from it. -/
theorem of_fits (i : Instr) (hA : i.operands.getD 0 0 < 4096) (hB : i.operands.getD 1 0 < 4096) :
    opField (encode i) = opcode i ∧
      (fieldA (encode i)).toNat = i.operands.getD 0 0 ∧ (fieldB (encode i)).toNat = i.operands.getD 1 0 := by
  simp only [encode, opField_commandWord, fieldA_commandWord, fieldB_commandWord, operandA, operandB,
    BitVec.toNat_ofNat]
  exact ⟨trivial, Nat.mod_eq_of_lt hA, Nat.mod_eq_of_lt hB⟩

theorem nop : Statement .nop := fun _ => of_fits _ (by decide) (by decide)
theorem rst : Statement .rst := fun _ => of_fits _ (by decide) (by decide)
theorem rdr (sel : Nat) : Statement (.rdr sel) := fun h => of_fits _ (h sel (by simp [Instr.operands])) (by simp [Instr.operands])
theorem bfld (msel root : Nat) : Statement (.bfld msel root) := fun h =>
  of_fits _ (h msel (by simp [Instr.operands])) (h root (by simp [Instr.operands]))
theorem gmul (a b : Nat) : Statement (.gmul a b) := fun h =>
  of_fits _ (h a (by simp [Instr.operands])) (h b (by simp [Instr.operands]))
theorem rdlog (x : Nat) : Statement (.rdlog x) := fun h => of_fits _ (h x (by simp [Instr.operands])) (by simp [Instr.operands])
theorem rdpow (i : Nat) : Statement (.rdpow i) := fun h => of_fits _ (h i (by simp [Instr.operands])) (by simp [Instr.operands])
theorem bgen (n : Nat) : Statement (.bgen n) := fun h => of_fits _ (h n (by simp [Instr.operands])) (by simp [Instr.operands])
theorem gload (n : Nat) : Statement (.gload n) := fun h => of_fits _ (h n (by simp [Instr.operands])) (by simp [Instr.operands])
theorem gpush (v : Nat) : Statement (.gpush v) := fun h => of_fits _ (h v (by simp [Instr.operands])) (by simp [Instr.operands])
theorem rdg (k : Nat) : Statement (.rdg k) := fun h => of_fits _ (h k (by simp [Instr.operands])) (by simp [Instr.operands])
theorem einit : Statement .einit := fun _ => of_fits _ (by decide) (by decide)
theorem edata (d : Nat) : Statement (.edata d) := fun h => of_fits _ (h d (by simp [Instr.operands])) (by simp [Instr.operands])
theorem efin : Statement .efin := fun _ => of_fits _ (by decide) (by decide)
theorem rdchk (j : Nat) : Statement (.rdchk j) := fun h => of_fits _ (h j (by simp [Instr.operands])) (by simp [Instr.operands])
theorem rdacc (j : Nat) : Statement (.rdacc j) := fun h => of_fits _ (h j (by simp [Instr.operands])) (by simp [Instr.operands])

end Sys2Proof.Laws.EncodeFields
end

