-- ==== Sys2Proof/Laws/State.lean ====
section
/-! SUPPORT. One lemma per field per named update of the state: `answer`, `latch`, `resetRegisters`, `hardReset`,
`withFetchWord`. Later proofs read a field after an update by `simp`, without unfolding the update. -/

namespace Sys2Proof.Machine

variable (s : State)

/-! ## `answer` -/

@[simp] theorem State.answer_msel (e : ErrCode) (v : Word) : (s.answer e v).msel = s.msel := rfl
@[simp] theorem State.answer_root (e : ErrCode) (v : Word) : (s.answer e v).root = s.root := rfl
@[simp] theorem State.answer_n (e : ErrCode) (v : Word) : (s.answer e v).n = s.n := rfl
@[simp] theorem State.answer_gptr (e : ErrCode) (v : Word) : (s.answer e v).gptr = s.gptr := rfl
@[simp] theorem State.answer_phase (e : ErrCode) (v : Word) : (s.answer e v).phase = s.phase := rfl
@[simp] theorem State.answer_err (e : ErrCode) (v : Word) : (s.answer e v).err = s.err := rfl
@[simp] theorem State.answer_errcmd (e : ErrCode) (v : Word) : (s.answer e v).errcmd = s.errcmd := rfl
@[simp] theorem State.answer_fv (e : ErrCode) (v : Word) : (s.answer e v).fv = s.fv := rfl
@[simp] theorem State.answer_gv (e : ErrCode) (v : Word) : (s.answer e v).gv = s.gv := rfl
@[simp] theorem State.answer_gld (e : ErrCode) (v : Word) : (s.answer e v).gld = s.gld := rfl
@[simp] theorem State.answer_log (e : ErrCode) (v : Word) : (s.answer e v).log = s.log := rfl
@[simp] theorem State.answer_pow (e : ErrCode) (v : Word) : (s.answer e v).pow = s.pow := rfl
@[simp] theorem State.answer_g (e : ErrCode) (v : Word) : (s.answer e v).g = s.g := rfl
@[simp] theorem State.answer_acc (e : ErrCode) (v : Word) : (s.answer e v).acc = s.acc := rfl
@[simp] theorem State.answer_rsp (e : ErrCode) (v : Word) : (s.answer e v).rsp = some ⟨e, v⟩ := rfl
@[simp] theorem State.answer_port (e : ErrCode) (v : Word) : (s.answer e v).port = s.port := rfl

/-! ## `latch` -/

@[simp] theorem State.latch_msel (e : ErrCode) (w : Word) : (s.latch e w).msel = s.msel := rfl
@[simp] theorem State.latch_root (e : ErrCode) (w : Word) : (s.latch e w).root = s.root := rfl
@[simp] theorem State.latch_n (e : ErrCode) (w : Word) : (s.latch e w).n = s.n := rfl
@[simp] theorem State.latch_gptr (e : ErrCode) (w : Word) : (s.latch e w).gptr = s.gptr := rfl
@[simp] theorem State.latch_phase (e : ErrCode) (w : Word) : (s.latch e w).phase = s.phase := rfl
@[simp] theorem State.latch_err (e : ErrCode) (w : Word) : (s.latch e w).err = e := rfl
@[simp] theorem State.latch_errcmd (e : ErrCode) (w : Word) : (s.latch e w).errcmd = w := rfl
@[simp] theorem State.latch_fv (e : ErrCode) (w : Word) : (s.latch e w).fv = s.fv := rfl
@[simp] theorem State.latch_gv (e : ErrCode) (w : Word) : (s.latch e w).gv = s.gv := rfl
@[simp] theorem State.latch_gld (e : ErrCode) (w : Word) : (s.latch e w).gld = s.gld := rfl
@[simp] theorem State.latch_log (e : ErrCode) (w : Word) : (s.latch e w).log = s.log := rfl
@[simp] theorem State.latch_pow (e : ErrCode) (w : Word) : (s.latch e w).pow = s.pow := rfl
@[simp] theorem State.latch_g (e : ErrCode) (w : Word) : (s.latch e w).g = s.g := rfl
@[simp] theorem State.latch_acc (e : ErrCode) (w : Word) : (s.latch e w).acc = s.acc := rfl
@[simp] theorem State.latch_rsp (e : ErrCode) (w : Word) : (s.latch e w).rsp = s.rsp := rfl
@[simp] theorem State.latch_port (e : ErrCode) (w : Word) : (s.latch e w).port = s.port := rfl

/-! ## `resetRegisters` -/

@[simp] theorem State.resetRegisters_msel : s.resetRegisters.msel = 0 := rfl
@[simp] theorem State.resetRegisters_root : s.resetRegisters.root = 0 := rfl
@[simp] theorem State.resetRegisters_n : s.resetRegisters.n = 0 := rfl
@[simp] theorem State.resetRegisters_gptr : s.resetRegisters.gptr = 0 := rfl
@[simp] theorem State.resetRegisters_phase : s.resetRegisters.phase = .idle := rfl
@[simp] theorem State.resetRegisters_err : s.resetRegisters.err = .ok := rfl
@[simp] theorem State.resetRegisters_errcmd : s.resetRegisters.errcmd = 0 := rfl
@[simp] theorem State.resetRegisters_fv : s.resetRegisters.fv = false := rfl
@[simp] theorem State.resetRegisters_gv : s.resetRegisters.gv = false := rfl
@[simp] theorem State.resetRegisters_gld : s.resetRegisters.gld = false := rfl
@[simp] theorem State.resetRegisters_log : s.resetRegisters.log = s.log := rfl
@[simp] theorem State.resetRegisters_pow : s.resetRegisters.pow = s.pow := rfl
@[simp] theorem State.resetRegisters_g : s.resetRegisters.g = s.g := rfl
@[simp] theorem State.resetRegisters_acc : s.resetRegisters.acc = s.acc := rfl
@[simp] theorem State.resetRegisters_rsp : s.resetRegisters.rsp = s.rsp := rfl
@[simp] theorem State.resetRegisters_port : s.resetRegisters.port = s.port := rfl

/-! ## `hardReset` -/

@[simp] theorem hardReset_msel : (hardReset s).msel = 0 := rfl
@[simp] theorem hardReset_root : (hardReset s).root = 0 := rfl
@[simp] theorem hardReset_n : (hardReset s).n = 0 := rfl
@[simp] theorem hardReset_gptr : (hardReset s).gptr = 0 := rfl
@[simp] theorem hardReset_phase : (hardReset s).phase = .idle := rfl
@[simp] theorem hardReset_err : (hardReset s).err = .ok := rfl
@[simp] theorem hardReset_errcmd : (hardReset s).errcmd = 0 := rfl
@[simp] theorem hardReset_fv : (hardReset s).fv = false := rfl
@[simp] theorem hardReset_gv : (hardReset s).gv = false := rfl
@[simp] theorem hardReset_gld : (hardReset s).gld = false := rfl
@[simp] theorem hardReset_log : (hardReset s).log = s.log := rfl
@[simp] theorem hardReset_pow : (hardReset s).pow = s.pow := rfl
@[simp] theorem hardReset_g : (hardReset s).g = s.g := rfl
@[simp] theorem hardReset_acc : (hardReset s).acc = s.acc := rfl
@[simp] theorem hardReset_rsp : (hardReset s).rsp = none := rfl
@[simp] theorem hardReset_port : (hardReset s).port = s.port := rfl

/-! ## `withFetchWord` -/

@[simp] theorem State.withFetchWord_msel (nbits w : Nat) : (s.withFetchWord nbits w).msel = s.msel := rfl
@[simp] theorem State.withFetchWord_root (nbits w : Nat) : (s.withFetchWord nbits w).root = s.root := rfl
@[simp] theorem State.withFetchWord_n (nbits w : Nat) : (s.withFetchWord nbits w).n = s.n := rfl
@[simp] theorem State.withFetchWord_gptr (nbits w : Nat) : (s.withFetchWord nbits w).gptr = s.gptr := rfl
@[simp] theorem State.withFetchWord_phase (nbits w : Nat) : (s.withFetchWord nbits w).phase = s.phase := rfl
@[simp] theorem State.withFetchWord_err (nbits w : Nat) : (s.withFetchWord nbits w).err = s.err := rfl
@[simp] theorem State.withFetchWord_errcmd (nbits w : Nat) : (s.withFetchWord nbits w).errcmd = s.errcmd := rfl
@[simp] theorem State.withFetchWord_fv (nbits w : Nat) : (s.withFetchWord nbits w).fv = s.fv := rfl
@[simp] theorem State.withFetchWord_gv (nbits w : Nat) : (s.withFetchWord nbits w).gv = s.gv := rfl
@[simp] theorem State.withFetchWord_gld (nbits w : Nat) : (s.withFetchWord nbits w).gld = s.gld := rfl
@[simp] theorem State.withFetchWord_log (nbits w : Nat) : (s.withFetchWord nbits w).log = s.log := rfl
@[simp] theorem State.withFetchWord_pow (nbits w : Nat) : (s.withFetchWord nbits w).pow = s.pow := rfl
@[simp] theorem State.withFetchWord_g (nbits w : Nat) : (s.withFetchWord nbits w).g = s.g := rfl
@[simp] theorem State.withFetchWord_acc (nbits w : Nat) : (s.withFetchWord nbits w).acc = s.acc := rfl
@[simp] theorem State.withFetchWord_rsp (nbits w : Nat) : (s.withFetchWord nbits w).rsp = none := rfl
@[simp] theorem State.withFetchWord_port (nbits w : Nat) : (s.withFetchWord nbits w).port = PortIn.offer (BitVec.ofNat 32 (w % 2 ^ nbits)) :: s.port := rfl

/-! ## `advanceLoad`: a push changes `GV`, `GLD`, `GPTR` and nothing else (R62) -/

@[simp] theorem State.advanceLoad_msel : s.advanceLoad.msel = s.msel := by unfold State.advanceLoad; split <;> rfl
@[simp] theorem State.advanceLoad_root : s.advanceLoad.root = s.root := by unfold State.advanceLoad; split <;> rfl
@[simp] theorem State.advanceLoad_n : s.advanceLoad.n = s.n := by unfold State.advanceLoad; split <;> rfl
@[simp] theorem State.advanceLoad_phase : s.advanceLoad.phase = s.phase := by unfold State.advanceLoad; split <;> rfl
@[simp] theorem State.advanceLoad_err : s.advanceLoad.err = s.err := by unfold State.advanceLoad; split <;> rfl
@[simp] theorem State.advanceLoad_errcmd : s.advanceLoad.errcmd = s.errcmd := by unfold State.advanceLoad; split <;> rfl
@[simp] theorem State.advanceLoad_fv : s.advanceLoad.fv = s.fv := by unfold State.advanceLoad; split <;> rfl
@[simp] theorem State.advanceLoad_log : s.advanceLoad.log = s.log := by unfold State.advanceLoad; split <;> rfl
@[simp] theorem State.advanceLoad_pow : s.advanceLoad.pow = s.pow := by unfold State.advanceLoad; split <;> rfl
@[simp] theorem State.advanceLoad_g : s.advanceLoad.g = s.g := by unfold State.advanceLoad; split <;> rfl
@[simp] theorem State.advanceLoad_acc : s.advanceLoad.acc = s.acc := by unfold State.advanceLoad; split <;> rfl
@[simp] theorem State.advanceLoad_rsp : s.advanceLoad.rsp = s.rsp := by unfold State.advanceLoad; split <;> rfl
@[simp] theorem State.advanceLoad_port : s.advanceLoad.port = s.port := by unfold State.advanceLoad; split <;> rfl

theorem State.advanceLoad_last (h : s.gptr.toNat + 1 = s.n.toNat) :
    s.advanceLoad = { s with gv := true, gld := false, gptr := 0 } := if_pos h

theorem State.advanceLoad_more (h : s.gptr.toNat + 1 ≠ s.n.toNat) :
    s.advanceLoad = { s with gptr := s.gptr + 1 } := if_neg h

/-! ## The modulus and the readable registers depend on few fields -/

@[simp] theorem State.answer_p (e : ErrCode) (v : Word) : (s.answer e v).p = s.p := rfl
@[simp] theorem State.latch_p (e : ErrCode) (w : Word) : (s.latch e w).p = s.p := rfl

end Sys2Proof.Machine
end

