-- ==== Sys2Proof/Laws/Invariant.lean ====
section
/-! SUPPORT. What the invariants of R18 need of the shared operations: the updates that only answer, move the port,
latch an error or reset the registers keep them. Proofs about a command cite these for all but the command's own
effect. -/

namespace Sys2Proof.Machine

variable {s t : State}

theorem StorageWf.log (h : StorageWf s) : s.log.sorted := Storage.wf_sorted (h .log)
theorem StorageWf.pow (h : StorageWf s) : s.pow.sorted := Storage.wf_sorted (h .pow)
theorem StorageWf.g (h : StorageWf s) : s.g.sorted := Storage.wf_sorted (h .g)
theorem StorageWf.acc (h : StorageWf s) : s.acc.sorted := Storage.wf_sorted (h .acc)

/-- The canonical form, space by space. -/
theorem storageWf_iff : StorageWf s ↔ s.log.wf Config.logDepth = true ∧ s.pow.wf Config.powDepth = true ∧
    s.g.wf Config.gDepth = true ∧ s.acc.wf Config.accDepth = true := by
  constructor
  · intro h; exact ⟨h .log, h .pow, h .g, h .acc⟩
  · rintro ⟨h1, h2, h3, h4⟩ sp
    cases sp
    · exact h1
    · exact h2
    · exact h3
    · exact h4

/-- The field tables depend on four fields of the state. -/
theorem FieldOk.congr (h : FieldOk s) (h1 : t.msel = s.msel) (h2 : t.root = s.root) (h3 : t.log = s.log)
    (h4 : t.pow = s.pow) : FieldOk t := by
  have hp : t.p = s.p := by simp [State.p, h1]
  obtain ⟨a, b, c, d, e, f⟩ := h
  constructor <;> simp only [hp, h2, h3, h4] <;> assumption

/-- The invariants say nothing of the port. -/
theorem Invariant.port (h : Invariant s) (r : Option Response) (sigs : List PortIn) :
    Invariant { s with rsp := r, port := sigs } where
  generator_field := h.generator_field
  load_field := h.load_field
  phase_generator := h.phase_generator
  length_range := h.length_range
  length_zero := h.length_zero
  pointer_lt := h.pointer_lt
  pointer_zero := h.pointer_zero
  field_ok hf := (h.field_ok hf).congr rfl rfl rfl rfl
  no_field := h.no_field
  generator_ok := h.generator_ok
  acc_ok := h.acc_ok
  no_error := h.no_error
  error_word := h.error_word
  legal_codes := h.legal_codes
  error_stored := h.error_stored
  load_ok := h.load_ok
  storage_wf := storageWf_iff.2 (storageWf_iff.1 h.storage_wf)

/-- An answer keeps the invariants. -/
theorem Invariant.answer (h : Invariant s) (e : ErrCode) (v : Word) : Invariant (s.answer e v) :=
  h.port (some ⟨e, v⟩) s.port

/-- Codes 8 to 15 are never produced (R100). -/
theorem errCode_lt (e : ErrCode) : e.code.toNat < 8 := by cases e <;> decide

/-- Latching an error keeps the invariants, if it is an error, not `E_HALTED`, of a word that is not 0 (R18 item 9). -/
theorem Invariant.latch (h : Invariant s) (e : ErrCode) (w : Word) (he : e ≠ .ok) (he' : e ≠ .halted) (hw : w ≠ 0) :
    Invariant (s.latch e w) where
  generator_field := h.generator_field
  load_field := h.load_field
  phase_generator := h.phase_generator
  length_range := h.length_range
  length_zero := h.length_zero
  pointer_lt := h.pointer_lt
  pointer_zero := h.pointer_zero
  field_ok hf := (h.field_ok hf).congr rfl rfl rfl rfl
  no_field := h.no_field
  generator_ok := h.generator_ok
  acc_ok := h.acc_ok
  no_error h0 := absurd h0 he
  error_word _ := hw
  legal_codes := ⟨h.legal_codes.1, errCode_lt e⟩
  error_stored := he'
  load_ok := h.load_ok
  storage_wf := storageWf_iff.2 (storageWf_iff.1 h.storage_wf)

/-- A reset of the registers gives the invariants back, whatever they were, if the storage is in canonical form. -/
theorem Invariant.of_resetRegisters (h : StorageWf s) : Invariant s.resetRegisters where
  generator_field h0 := nomatch h0
  load_field h0 := nomatch h0
  phase_generator h0 := absurd rfl h0
  length_range h0 := by rcases h0 with h0 | h0 <;> cases h0
  length_zero _ _ := rfl
  pointer_lt h0 := nomatch h0
  pointer_zero _ := rfl
  field_ok h0 := nomatch h0
  no_field _ := ⟨rfl, rfl⟩
  generator_ok h0 := nomatch h0
  acc_ok h0 := absurd rfl h0
  no_error _ := rfl
  error_word h0 := absurd rfl h0
  legal_codes := ⟨(by decide : Phase.idle.code ≠ 3), errCode_lt .ok⟩
  error_stored h0 := nomatch h0
  load_ok h0 := nomatch h0
  storage_wf := storageWf_iff.2 (storageWf_iff.1 h)

/-- Only `NOP` has the word 0, so a failing command never latches it (R18 item 9). -/
theorem encode_ne_zero (i : Instr) (h : i ≠ .nop) : encode i ≠ 0 := by
  intro h0
  have h1 : opField (encode i) = 0 := by rw [h0]; decide
  simp only [encode, opField_commandWord] at h1
  cases i <;> simp [opcode] at h1 h

end Sys2Proof.Machine
end

