-- ==== Sys2Proof/Laws/Ops.lean ====
section
/-! SUPPORT. What the shared operations of a command can do, said once: the halt, the checks, the error entry and the
existence test. A proof about a command cites `command_next` (what a next state can be) or `command_runs`,
`command_fails`, `command_halted` (what it is), and does not unfold `command`. -/

namespace Sys2Proof.Machine

@[simp] theorem firstFailure_nil : firstFailure [] = none := rfl

@[simp] theorem firstFailure_cons_true (e : ErrCode) (cs : List (Bool × ErrCode)) :
    firstFailure ((true, e) :: cs) = some e := rfl

@[simp] theorem firstFailure_cons_false (e : ErrCode) (cs : List (Bool × ErrCode)) :
    firstFailure ((false, e) :: cs) = firstFailure cs := rfl

/-- Some check fails with `e` only if one of the checks names `e` and holds. -/
theorem firstFailure_some {cs : List (Bool × ErrCode)} {e : ErrCode} (h : firstFailure cs = some e) :
    (true, e) ∈ cs := by
  induction cs with
  | nil => simp at h
  | cons c cs ih =>
    obtain ⟨b, e'⟩ := c
    cases b with
    | true => rw [firstFailure_cons_true, Option.some.injEq] at h; simp [h]
    | false => exact List.mem_cons_of_mem _ (ih h)

/-- No check fails exactly when each is false. -/
theorem firstFailure_none_iff (cs : List (Bool × ErrCode)) :
    firstFailure cs = none ↔ ∀ c ∈ cs, c.1 = false := by
  induction cs with
  | nil => simp
  | cons c cs ih =>
    obtain ⟨b, e⟩ := c
    cases b with
    | true => simp
    | false => simp [ih]

theorem unlessHalted_running {s : State} (h : s.err = .ok) (run : Result) : unlessHalted s run = run := if_pos h

theorem unlessHalted_halted {s : State} (h : s.err ≠ .ok) (run : Result) :
    unlessHalted s run = .next (s.answer .halted 0) := if_neg h

/-- R112: a halted block answers `E_HALTED` and nothing else happens. -/
theorem command_halted {s : State} (h : s.err ≠ .ok) (w : Word) (checks : List (Bool × ErrCode)) (run : Result) :
    command s w checks run = .next (s.answer .halted 0) := unlessHalted_halted h _

/-- R110, R111: the first check that fails ends the command. -/
theorem command_fails {s : State} (h : s.err = .ok) {w : Word} {checks : List (Bool × ErrCode)} {e : ErrCode}
    (hc : firstFailure checks = some e) (run : Result) :
    command s w checks run = .next ((s.latch e w).answer e 0) := by
  simp only [command, unlessHalted_running h, hc, fail]

/-- A command whose checks all hold runs. -/
theorem command_runs {s : State} (h : s.err = .ok) {w : Word} {checks : List (Bool × ErrCode)}
    (hc : firstFailure checks = none) (run : Result) : command s w checks run = run := by
  simp only [command, unlessHalted_running h, hc]

/-- All that a command can do: answer `E_HALTED`, fail with its first failing check, or run. -/
theorem command_next {s t : State} {w : Word} {checks : List (Bool × ErrCode)} {run : Result}
    (h : command s w checks run = .next t) :
    (s.err ≠ .ok ∧ t = s.answer .halted 0) ∨
    (s.err = .ok ∧ ∃ e, firstFailure checks = some e ∧ t = (s.latch e w).answer e 0) ∨
    (s.err = .ok ∧ firstFailure checks = none ∧ run = .next t) := by
  by_cases hs : s.err = .ok
  · cases hc : firstFailure checks with
    | none => rw [command_runs hs hc] at h; exact .inr (.inr ⟨hs, rfl, h⟩)
    | some e =>
      rw [command_fails hs hc] at h
      exact .inr (.inl ⟨hs, e, rfl, (Host.Outcome.next.inj h).symm⟩)
  · rw [command_halted hs] at h
    exact .inl ⟨hs, (Host.Outcome.next.inj h).symm⟩

/-- A command answers a next state whenever the run behind its checks does. -/
theorem command_total {s : State} {w : Word} {checks : List (Bool × ErrCode)} {run : Result}
    (h : firstFailure checks = none → ∃ t, run = .next t) : ∃ t, command s w checks run = .next t := by
  by_cases hs : s.err = .ok
  · cases hc : firstFailure checks with
    | none => rw [command_runs hs hc]; exact h hc
    | some e => exact ⟨_, command_fails hs hc _⟩
  · exact ⟨_, command_halted hs _ _ _⟩

theorem respond_next {s t : State} {v : Word} (h : respond s v = .next t) : t = s.answer .ok v :=
  (Host.Outcome.next.inj h).symm

theorem ifExists_inside {sp : Space} {b : Bool} (h : b = true) (run : Result) : ifExists sp b run = run := if_pos h

/-- A next state behind an existence test: the entries exist. -/
theorem ifExists_next {sp : Space} {b : Bool} {run : Result} {t : State} (h : ifExists sp b run = .next t) :
    b = true ∧ run = .next t := by
  cases b with
  | true => exact ⟨rfl, h⟩
  | false => cases h

/-- What an edge of the port can do when it gives a next state: a hard reset, an accepted word, a delivery, or
nothing. -/
theorem edge_next {sig : PortIn} {s t : State} (h : edge sig s = .next t) :
    (sig.rst = true ∧ t = hardReset s) ∨
    (sig.rst = false ∧ s.rsp = none ∧ sig.cmdValid = true ∧ stepWord sig.cmd s = .next t) ∨
    (sig.rst = false ∧ s.rsp ≠ none ∧ sig.rspReady = true ∧ t = { s with rsp := none }) ∨
    (sig.rst = false ∧ t = s) := by
  unfold edge State.cmdReady State.rspValid at h
  cases hr : sig.rst with
  | true => rw [hr] at h; exact .inl ⟨rfl, (Host.Outcome.next.inj h).symm⟩
  | false =>
    cases hp : s.rsp with
    | none =>
      cases hv : sig.cmdValid with
      | true => simp [hr, hp, hv] at h; exact .inr (.inl ⟨rfl, rfl, rfl, h⟩)
      | false => simp [hr, hp, hv] at h; exact .inr (.inr (.inr ⟨rfl, h.symm⟩))
    | some r =>
      cases hv : sig.rspReady with
      | true => simp [hr, hp, hv] at h; exact .inr (.inr (.inl ⟨rfl, by simp, rfl, h.symm⟩))
      | false => simp [hr, hp, hv] at h; exact .inr (.inr (.inr ⟨rfl, h.symm⟩))

/-- What a step can do: wait when no port signal is left, or take the next edge. -/
theorem step_next {s t : State} (h : step s = .next t) :
    (s.port = [] ∧ t = s) ∨ ∃ sig rest, s.port = sig :: rest ∧ edge sig { s with port := rest } = .next t := by
  unfold step at h
  split at h
  · rename_i hp; exact .inl ⟨hp, (Host.Outcome.next.inj h).symm⟩
  · rename_i sig rest hp; exact .inr ⟨sig, rest, hp, h⟩

end Sys2Proof.Machine
end

