-- ==== Sys2Proof/Tests/Slice0.lean ====
section
/-! SUPPORT. The model's own tests: the smoke test of `WellFormed`, words decoded bit by bit from R43, at most two
small checks per command against the vectors of spec/95_test_vectors.md, and for every statement with hypotheses a
concrete state and operands that meet them. -/

namespace Sys2Proof.Tests

open Sys2Proof Sys2Proof.Machine

/- One theorem after the other: each evaluation in the kernel waits for the theorems before it, and many waiting at a
time hold more memory than the check allows. -/
set_option Elab.async false

/-! ## WellFormed refuses an operand that does not fit its field (R41) -/

theorem test_wellFormed_refuses_A : ¬ WellFormed (.rdr 4096) := by decide
theorem test_wellFormed_refuses_A_of_two : ¬ WellFormed (.bfld 4096 3) := by decide
theorem test_wellFormed_refuses_B : ¬ WellFormed (.gmul 1 4096) := by decide
theorem test_wellFormed_accepts_out_of_range : WellFormed (.bfld 4095 4095) := by decide
theorem test_legal_refuses_empty_ldgen : ¬ Pseudo.Legal (.ldgen []) := by decide
theorem test_legal_refuses_wide_operand : ¬ Pseudo.Legal (.encode [1, 4096]) := by decide
theorem test_legal_accepts : Pseudo.Legal (.ldgen [27, 917]) := by decide

/-! ## Decoding, words written from the fields of R40 and the opcodes of R43 -/

theorem test_decode_nop : decode 0b00000000_000000000000_000000000000 = .ok .nop := by decide
theorem test_decode_rst : decode 0b00000001_000000000000_000000000000 = .ok .rst := by decide
theorem test_decode_rdr : decode 0b00000010_000000000101_000000000000 = .ok (.rdr 5) := by decide
theorem test_decode_bfld : decode 0b00010000_000000000001_000000000011 = .ok (.bfld 1 3) := by decide
theorem test_decode_gmul : decode 0b00010001_000001100100_000011001000 = .ok (.gmul 100 200) := by decide
theorem test_decode_rdlog : decode 0b00010010_000000000010_000000000000 = .ok (.rdlog 2) := by decide
theorem test_decode_rdpow : decode 0b00010011_011100111111_000000000000 = .ok (.rdpow 1855) := by decide
theorem test_decode_bgen : decode 0b00100000_000010000000_000000000000 = .ok (.bgen 128) := by decide
theorem test_decode_gload : decode 0b00100001_000000000010_000000000000 = .ok (.gload 2) := by decide
theorem test_decode_gpush : decode 0b00100010_001110010101_000000000000 = .ok (.gpush 917) := by decide
theorem test_decode_rdg : decode 0b00100011_000000000100_000000000000 = .ok (.rdg 4) := by decide
theorem test_decode_einit : decode 0b00110000_000000000000_000000000000 = .ok .einit := by decide
theorem test_decode_edata : decode 0b00110001_000111000101_000000000000 = .ok (.edata 453) := by decide
theorem test_decode_efin : decode 0b00110010_000000000000_000000000000 = .ok .efin := by decide
theorem test_decode_rdchk : decode 0b00110011_000011001000_000000000000 = .ok (.rdchk 200) := by decide
theorem test_decode_rdacc : decode 0b00110100_000000000011_000000000000 = .ok (.rdacc 3) := by decide

/-- R46: unassigned opcodes at the edges of the gaps, and unused fields that are not zero. -/
theorem test_decode_illegal :
    decode 0x03000000 = .error .unassignedOpcode ∧ decode 0x0F000000 = .error .unassignedOpcode ∧
    decode 0x14000000 = .error .unassignedOpcode ∧ decode 0x24000000 = .error .unassignedOpcode ∧
    decode 0x35000000 = .error .unassignedOpcode ∧ decode 0xFFFFFFFF = .error .unassignedOpcode ∧
    decode 0x00000001 = .error .nonzeroUnusedField ∧ decode 0x32000001 = .error .nonzeroUnusedField ∧
    decode 0x01001000 = .error .nonzeroUnusedField ∧ decode 0x31005001 = .error .nonzeroUnusedField := by decide

/-- The words of spec/95_test_vectors.md for one command of each operand form. -/
theorem test_encode :
    encode .efin = 0x32000000 ∧ encode (.gpush 917) = 0x22395000 ∧ encode (.gmul 282 282) = 0x1111A11A := by decide

theorem test_decodeTableWord : decodeTableWord 32 0x110640C8 = some (.gmul 100 200) := by decide

/-- R43: no two rows of the table match the same word. -/
theorem test_rows_disjoint :
    opcodeTable.Pairwise fun r r' => r.pattern &&& (r.mask &&& r'.mask) ≠ r'.pattern &&& (r.mask &&& r'.mask) := by
  decide

/-- R48: the spelling of the example of R48. -/
theorem test_assembler : (Instr.gmul 100 200).assembler = "GMUL 100, 200" := by decide

/-! ## Small states -/

/-- The next state of an outcome; reset where there is none. -/
def after (r : Result) : State :=
  match r with
  | .next t => t
  | .fault _ => State.reset
  | .refused _ => State.reset

/-- The response an outcome offers. -/
def response (r : Result) : Option Response := (after r).rsp

/-- A field built from reset (R51). -/
def built (msel : BitVec 1) (root : BitVec 10) : State :=
  { State.reset with
    fv := true, msel := msel, root := root
    log := buildLog (modulus msel) root.toNat [], pow := buildPow (modulus msel) root.toNat [] }

/-- The field of `BFLD 0, 3` (vector F1). -/
@[irreducible] def field : State := built 0 3

/-- The field of `BFLD 1, 3` (vector F2). -/
@[irreducible] def field929 : State := built 1 3

/-- The generator of `BGEN 3` in that field (vector G3). -/
def gen : State := { field with n := 3, gv := true, g := [(0, 256), (1, 39), (2, 270), (3, 1)] }

/-- After `EINIT`, `EDATA 1` (vector E1). -/
def enc : State := { gen with phase := .encoding, acc := [(0, 27), (1, 244), (2, 13)] }

/-- After `EFIN` on vector E2. -/
def fin : State := { gen with phase := .done, acc := [(0, 235), (1, 136), (2, 189)] }

/-- After `GLOAD 2`, `GPUSH 27`: one more push to come. -/
def load : State := { field with n := 2, gptr := 1, gld := true, g := [(0, 27), (2, 1)] }

/-- A block halted by `RDR 7`. -/
def halted : State := { State.reset with err := .range, errcmd := 0x02007000 }

/-! ## The commands, each against its vectors -/

theorem test_nop : response (exec .nop State.reset) = some ⟨.ok, 0⟩ := by decide
theorem test_nop_halted : response (exec .nop halted) = some ⟨.halted, 0⟩ := by decide

theorem test_rst : after (exec .rst halted) = { State.reset with rsp := some ⟨.ok, 0⟩ } := by decide

theorem test_rdr_cap : response (exec (.rdr 6) State.reset) = some ⟨.ok, 0x00010180⟩ := by decide
/-- `STATUS` of G11: `0x514` after a load of one coefficient and the failing `RDG 0`. -/
theorem test_rdr_status :
    response (exec (.rdr 0) (after (exec (.rdg 0) { State.reset with fv := true, gld := true, n := 3, gptr := 1 })))
      = some ⟨.ok, 0x514⟩ := by decide

/-- F1: `LOG[2] = 159`, through a whole build. -/
theorem test_bfld_log : (after (exec (.bfld 0 3) State.reset)).log.read 2 = 159 := by decide +kernel
/-- F6: the order of 2 modulo 283 is 94. -/
theorem test_bfld_root : response (exec (.bfld 0 2) State.reset) = some ⟨.root, 0⟩ := by decide +kernel

/-- F4: an index in the upper half of the antilog table. -/
theorem test_gmul : response (exec (.gmul 100 200) field) = some ⟨.ok, 190⟩ := by decide +kernel
/-- F6: the state check before the range check. -/
theorem test_gmul_priority : response (exec (.gmul 300 5) State.reset) = some ⟨.noField, 0⟩ := by decide

theorem test_rdlog : response (exec (.rdlog 282) field) = some ⟨.ok, 141⟩ := by decide +kernel
theorem test_rdlog_zero : response (exec (.rdlog 0) field) = some ⟨.range, 0⟩ := by decide +kernel

theorem test_rdpow : response (exec (.rdpow 563) field) = some ⟨.ok, 189⟩ := by decide +kernel
theorem test_rdpow_end : response (exec (.rdpow 564) field) = some ⟨.range, 0⟩ := by decide +kernel

/-- G3. -/
theorem test_bgen : (after (exec (.bgen 3) field)).g.span 4 = [256, 39, 270, 1] := by decide +kernel
theorem test_bgen_range : response (exec (.bgen 129) field) = some ⟨.range, 0⟩ := by decide +kernel

/-- G10, with a storage entry left over from before. -/
theorem test_gload : (after (exec (.gload 2) { gen with g := [(2, 5)] })).g = [(2, 1)] := by decide +kernel

/-- P2: the last push completes the generator. -/
theorem test_gpush_last :
    ((after (exec (.gpush 5) load)).gv, (after (exec (.gpush 5) load)).gptr, (after (exec (.gpush 5) load)).g)
      = (true, 0, [(0, 27), (1, 5), (2, 1)]) := by decide +kernel
/-- A coefficient 0 is written like any other. -/
theorem test_gpush_zero : ((after (exec (.gpush 0) { load with gptr := 0, g := [(0, 9), (2, 1)] })).g.span 3,
    (after (exec (.gpush 0) { load with gptr := 0 })).gptr) = ([0, 0, 1], 1) := by decide +kernel

theorem test_rdg : response (exec (.rdg 3) gen) = some ⟨.ok, 1⟩ := by decide +kernel
theorem test_rdg_range : response (exec (.rdg 4) gen) = some ⟨.range, 0⟩ := by decide +kernel

theorem test_einit : (after (exec .einit fin)).acc = [] ∧ (after (exec .einit fin)).phase = .encoding := by
  decide +kernel

/-- E2: `t = 15`, `ACC = 122, 8, 156`. -/
theorem test_edata : (after (exec (.edata 2) enc)).acc.span 3 = [122, 8, 156] := by decide +kernel
/-- E7: the feedback is 0, a pure shift. -/
theorem test_edata_shift : (after (exec (.edata 270) enc)).acc.span 3 = [0, 27, 244] := by decide +kernel

/-- E1; and a zero entry stays zero. -/
theorem test_efin : (after (exec .efin enc)).acc.span 3 = [256, 39, 270] := by decide +kernel
theorem test_efin_zero : (after (exec .efin { enc with acc := [(1, 244)] })).acc.span 3 = [0, 39, 0] := by
  decide +kernel

theorem test_rdchk : response (exec (.rdchk 2) fin) = some ⟨.ok, 189⟩ := by decide +kernel
/-- E15: the phase check before the range check. -/
theorem test_rdchk_priority : response (exec (.rdchk 200) enc) = some ⟨.phase, 0⟩ := by decide +kernel

theorem test_rdacc : response (exec (.rdacc 1) enc) = some ⟨.ok, 244⟩ := by decide +kernel

/-- An index that `ACC` does not have, in a state that no run reaches. -/
theorem test_noSuchEntry : (exec .einit { gen with n := 129 } matches .fault (.noSuchEntry .acc)) = true := by
  decide +kernel

/-! ## The port -/

/-- P3: an illegal word latches itself; the response is then delivered. -/
theorem test_port_illegal :
    after (step { State.reset with port := [.offer 0x32000001, .take] })
      = { State.reset with err := .illegal, errcmd := 0x32000001, rsp := some ⟨.illegal, 0⟩, port := [.take] } := by
  decide
/-- R44: no command is accepted while a response is undelivered. -/
theorem test_port_busy :
    after (step { State.reset with rsp := some ⟨.ok, 0⟩, port := [.offer 0x01000000] })
      = { State.reset with rsp := some ⟨.ok, 0⟩ } := by decide
/-- R121: a hard reset while a response is undelivered. -/
theorem test_port_reset : after (step { halted with rsp := some ⟨.range, 0⟩, port := [.hardReset] }) = State.reset := by
  decide
theorem test_withFetchWord :
    response (step (State.reset.withFetchWord 32 0x02001000)) = some ⟨.ok, 283⟩ := by decide

/-! ## The small states satisfy the invariants -/

theorem modulus_le (m : BitVec 1) : modulus m ≤ 929 := by
  rcases modulus_eq m with h | h <;> omega

/-- A state that holds the tables built for its own `MSEL` and `ROOT` has a field as R15 and R16 say. -/
theorem fieldOk_of_tables (t : State) (m : BitVec 1) (r : BitVec 10) (h1 : t.msel = m) (h2 : t.root = r)
    (h3 : t.log = (built m r).log) (h4 : t.pow = (built m r).pow) (hr1 : 1 ≤ r.toNat)
    (hr2 : r.toNat < modulus m) (hp : isPrimitive (modulus m) r.toNat = true) : FieldOk t :=
  fieldOk_build t (modulus m) r.toNat (by rw [State.p, h1]) (by rw [h2]) hr1 hr2 hp [] [] trivial trivial h3 h4

theorem wf_built (m : BitVec 1) (r : BitVec 10) (hr1 : 1 ≤ r.toNat) (hr2 : r.toNat < modulus m) :
    (built m r).log.wf Config.logDepth = true ∧ (built m r).pow.wf Config.powDepth = true :=
  ⟨wf_buildLog (modulus_prime m) (modulus_le m) hr1 hr2 [] rfl, wf_buildPow (modulus_le m) [] rfl⟩

/-- A field built from reset satisfies the invariants. -/
theorem invariant_built (m : BitVec 1) (r : BitVec 10) (hr1 : 1 ≤ r.toNat) (hr2 : r.toNat < modulus m)
    (hp : isPrimitive (modulus m) r.toNat = true) : Invariant (built m r) where
  generator_field h := nomatch h
  load_field h := nomatch h
  phase_generator h := absurd rfl h
  length_range h := by rcases h with h | h <;> cases h
  length_zero _ _ := rfl
  pointer_lt h := nomatch h
  pointer_zero _ := rfl
  field_ok _ := fieldOk_of_tables _ m r rfl rfl rfl rfl hr1 hr2 hp
  no_field h := nomatch h
  generator_ok h := nomatch h
  acc_ok h := absurd rfl h
  no_error _ := rfl
  error_word h := absurd rfl h
  legal_codes := ⟨(by decide : Phase.idle.code ≠ 3), errCode_lt .ok⟩
  error_stored h := nomatch h
  load_ok h := nomatch h
  storage_wf := storageWf_iff.2 ⟨(wf_built m r hr1 hr2).1, (wf_built m r hr1 hr2).2, rfl, rfl⟩

theorem primitive_283 : isPrimitive (modulus 0) (3 : BitVec 10).toNat = true := by decide +kernel
theorem primitive_929 : isPrimitive (modulus 1) (3 : BitVec 10).toNat = true := by decide +kernel

theorem field_eq : field = built 0 3 := by rw [field]
theorem field929_eq : field929 = built 1 3 := by rw [field929]

theorem invariant_field : Invariant field :=
  field_eq ▸ invariant_built 0 3 (by decide) (by decide) primitive_283
theorem invariant_field929 : Invariant field929 :=
  field929_eq ▸ invariant_built 1 3 (by decide) (by decide) primitive_929

theorem wf_field : field.log.wf Config.logDepth = true ∧ field.pow.wf Config.powDepth = true :=
  field_eq ▸ wf_built 0 3 (by decide) (by decide)

theorem fieldOk_like_field (t : State) (h1 : t.msel = 0) (h2 : t.root = 3) (h3 : t.log = field.log)
    (h4 : t.pow = field.pow) : FieldOk t :=
  fieldOk_of_tables t 0 3 h1 h2 (by rw [h3, field_eq]) (by rw [h4, field_eq]) (by decide) (by decide) primitive_283

theorem invariant_gen : Invariant gen where
  generator_field := by decide +kernel
  load_field := by decide +kernel
  phase_generator := by decide +kernel
  length_range := by decide +kernel
  length_zero := by decide +kernel
  pointer_lt := by decide +kernel
  pointer_zero := by decide +kernel
  field_ok _ := fieldOk_like_field gen (by decide +kernel) (by decide +kernel) rfl rfl
  no_field := by decide +kernel
  generator_ok := by decide +kernel
  acc_ok := by decide +kernel
  no_error := by decide +kernel
  error_word := by decide +kernel
  legal_codes := by decide +kernel
  error_stored := by decide +kernel
  load_ok := by decide +kernel
  storage_wf := storageWf_iff.2 ⟨wf_field.1, wf_field.2, by decide, by decide +kernel⟩

theorem invariant_enc : Invariant enc where
  generator_field := by decide +kernel
  load_field := by decide +kernel
  phase_generator := by decide +kernel
  length_range := by decide +kernel
  length_zero := by decide +kernel
  pointer_lt := by decide +kernel
  pointer_zero := by decide +kernel
  field_ok _ := fieldOk_like_field enc (by decide +kernel) (by decide +kernel) rfl rfl
  no_field := by decide +kernel
  generator_ok := by decide +kernel
  acc_ok := by decide +kernel
  no_error := by decide +kernel
  error_word := by decide +kernel
  legal_codes := by decide +kernel
  error_stored := by decide +kernel
  load_ok := by decide +kernel
  storage_wf := storageWf_iff.2 ⟨wf_field.1, wf_field.2, by decide, by decide +kernel⟩

/-! ## Witnesses: a concrete state and operands that meet the hypotheses of each statement -/

/-- A block at reset to which the host offers `w`. -/
def offered (w : Word) : State := { State.reset with port := [.offer w] }

/-- A halted block to which the host offers `w`. -/
def offeredHalted (w : Word) : State := { halted with port := [.offer w] }

theorem accepts_offered (w : Word) : Accepts (offered w) w [] := ⟨.offer w, rfl, rfl, rfl, rfl, rfl⟩
theorem accepts_offeredHalted (w : Word) : Accepts (offeredHalted w) w [] := ⟨.offer w, rfl, rfl, rfl, rfl, rfl⟩

/-- An outcome is a next state with a property that can be evaluated. -/
theorem runs_of {r : Result} {P : State → Prop} [DecidablePred P]
    (h : (match r with | .next t => decide (P t) | .fault _ => false | .refused _ => false) = true) :
    ∃ t, r = .next t ∧ P t := by
  split at h
  · exact ⟨_, rfl, of_decide_eq_true h⟩
  · cases h
  · cases h

theorem witness_EncodeDecodeAgree : WellFormed (.gmul 4095 0) ∧ decode 0x34FFF000 = .ok (.rdacc 4095) := by decide

theorem witness_DecodeFollowsOpcodeTable :
    (∃ row ∈ opcodeTable, (0x34FFF000 : Word) &&& row.mask = row.pattern) ∧
    ∀ row ∈ opcodeTable, (0x35000000 : Word) &&& row.mask ≠ row.pattern := by decide

theorem witness_StepRunsDecodedCommand :
    Accepts (offered 0x110640C8) 0x110640C8 [] ∧ decode 0x110640C8 = .ok (.gmul 100 200) :=
  ⟨accepts_offered _, by decide⟩

theorem witness_IllegalWordFails :
    Accepts (offered 1) 1 [] ∧ decode 1 = .error .nonzeroUnusedField ∧ (offered 1).err = .ok :=
  ⟨accepts_offered _, by decide, rfl⟩

/-- The other words at the edge (`RDR 7`, an illegal word), `RST`, and `RDR 6`. -/
theorem witness_HaltedBlockAnswersOnlyResetAndReads :
    (∀ w, Accepts (offeredHalted w) w [] ∧ (offeredHalted w).err ≠ .ok) ∧
    (decode 0x02007000 = .ok (.rdr 7) ∧ decode 0xFFFFFFFF = .error .unassignedOpcode) ∧
    decode 0x01000000 = .ok .rst ∧ decode 0x02006000 = .ok (.rdr 6) :=
  ⟨fun w => ⟨accepts_offeredHalted w, nofun⟩, by decide⟩

theorem witness_HardResetAtAnyTime :
    ({ halted with rsp := some ⟨.range, 0⟩, port := [.hardReset] } : State).port = [.hardReset] ∧
    PortIn.hardReset.rst = true := ⟨rfl, rfl⟩

theorem witness_OneCommandInTheBlock :
    (({ State.reset with rsp := some ⟨.ok, 0⟩, port := [.take] } : State).rsp ≠ none ∧ PortIn.take.rspReady = true) ∧
    (({ State.reset with rsp := some ⟨.ok, 0⟩, port := [.offer 0] } : State).rsp ≠ none ∧
      (PortIn.offer 0).rspReady = false) ∧
    (({ State.reset with port := [.take] } : State).rsp = none ∧ PortIn.take.cmdValid = false) ∧
    PortIn.take.rst = false ∧ (PortIn.offer 0).rst = false ∧ State.reset.port = [] := by decide

theorem witness_EveryWordIsAnsweredOnce : ∃ t, stepWord 0x03000000 State.reset = .next t := ⟨_, rfl⟩

theorem witness_FailureChangesOnlyErrorRegisters :
    State.reset.err = .ok ∧
    ∃ t, stepWord 0x30000000 State.reset = .next t ∧ t.rsp = some ⟨.noGen, 0⟩ ∧ ErrCode.noGen ≠ .ok :=
  ⟨rfl, _, rfl, rfl, nofun⟩

/-- A read that leaves the halt as it is, and `RST`. -/
theorem witness_OnlyResetLeavesTheHalt :
    (∃ t, (offeredHalted 0x02000000).err ≠ .ok ∧ step (offeredHalted 0x02000000) = .next t) ∧
    ∃ t, (offeredHalted 0x01000000).err ≠ .ok ∧ step (offeredHalted 0x01000000) = .next t :=
  ⟨⟨_, nofun, rfl⟩, _, nofun, rfl⟩

theorem witness_MissingPrerequisiteFails :
    State.reset.err = .ok ∧ State.reset.fv = false ∧ State.reset.gv = false ∧ State.reset.gld = false ∧
    State.reset.phase ≠ .encoding ∧ State.reset.phase ≠ .done ∧ State.reset.phase = .idle := by decide

/-- Each operand at the first value out of its range, in a state in which the command's prerequisite holds. -/
theorem witness_OperandOutOfRangeFails :
    (State.reset.err = .ok ∧ 1 < 2 ∧ modulus (BitVec.ofNat 1 0) ≤ 283 ∧ modulus (BitVec.ofNat 1 1) ≤ 929 ∧ 6 < 7) ∧
    (field.err = .ok ∧ field.fv = true ∧ field.p ≤ 283 ∧ 2 * (field.p - 1) ≤ 564 ∧ 128 < 129) ∧
    (load.err = .ok ∧ load.gld = true ∧ load.p ≤ 283) ∧
    (gen.err = .ok ∧ gen.gv = true ∧ gen.n.toNat < 4) ∧
    (enc.err = .ok ∧ enc.phase = .encoding ∧ enc.p ≤ 283 ∧ enc.phase ≠ .idle ∧ enc.n.toNat ≤ 3) ∧
    (fin.err = .ok ∧ fin.phase = .done ∧ fin.n.toNat ≤ 3) := by decide +kernel

/-- The roots 1 (order 1) and 282 (order 2). -/
theorem witness_NonPrimitiveRootFails :
    State.reset.err = .ok ∧ 0 ≤ 1 ∧ 1 < modulus (BitVec.ofNat 1 0) ∧ 282 < modulus (BitVec.ofNat 1 0) ∧
    2 ≤ modulus (BitVec.ofNat 1 0) - 2 ∧ 1 ^ 1 % modulus (BitVec.ofNat 1 0) = 1 ∧
    282 ^ 2 % modulus (BitVec.ofNat 1 0) = 1 := by decide +kernel

theorem witness_CommandsRaiseOnlyTheirErrors :
    ∃ t, exec .efin State.reset = .next t ∧ t.rsp = some ⟨.phase, 0⟩ := ⟨_, rfl, rfl⟩

/-- The last command of an `ENCODE`, and the whole of `FIELD283`. -/
theorem witness_ExpandedCommandsAfterAFailureAreHalted :
    halted.err ≠ .ok ∧ ([.efin] : List Instr) ≠ [] ∧ [.efin] <:+ (Pseudo.encode [1, 2]).expand ∧
    [.bfld 0 3] <:+ Pseudo.field283.expand := by decide

/-- A halted block that `RST` leaves running. -/
theorem witness_RstResetsEveryRegister : halted.err ≠ .ok ∧ ∃ t, exec .rst halted = .next t ∧ t.err = .ok :=
  ⟨by decide, runs_of (by decide)⟩

theorem witness_NopDoesNothing : State.reset.err = .ok := rfl

theorem witness_RdrReadsRegisters : State.reset.msel = 0 ∧ field929.msel = 1 := by decide +kernel

theorem witness_PrimitiveRootsRunThroughTheField : 1 ≤ 282 ∧ 282 < modulus 0 ∧ 928 < modulus 1 := by decide

theorem wf_reset : StorageWf State.reset := fun sp => by cases sp <;> rfl

theorem witness_BfldBuildsTheTables :
    StorageWf State.reset ∧ State.reset.err = .ok ∧ 1 ≤ 1 ∧ 929 = modulus (BitVec.ofNat 1 1) ∧ 3 < 929 ∧
    isPrimitive 929 3 = true :=
  ⟨wf_reset, rfl, by decide, by decide, by decide, primitive_929⟩

theorem bfld_runs_of (s : State) (h : s.err = .ok) (msel root : Nat)
    (hc : firstFailure [(noModulus msel, .range), (badRoot (modulus (BitVec.ofNat 1 msel)) root, .range),
      (!isPrimitive (modulus (BitVec.ofNat 1 msel)) root, .root)] = none) :
    ∃ t, exec (.bfld msel root) s = .next t ∧ t.rsp = some ⟨.ok, 0⟩ ∧ t.fv = true :=
  ⟨_, command_runs h hc _, rfl, rfl⟩

theorem bfld_runs (s : State) (h : s.err = .ok) :
    ∃ t, exec (.bfld 0 3) s = .next t ∧ t.rsp = some ⟨.ok, 0⟩ ∧ t.fv = true :=
  bfld_runs_of s h 0 3 (by decide +kernel)

theorem witness_BfldForgetsThePast :
    StorageWf State.reset ∧ StorageWf field929 ∧
    (∃ s', exec (.bfld 0 3) State.reset = .next s' ∧ s'.rsp = some ⟨.ok, 0⟩) ∧
    ∃ t', exec (.bfld 0 3) field929 = .next t' ∧ t'.rsp = some ⟨.ok, 0⟩ :=
  ⟨wf_reset, invariant_field929.storage_wf, (bfld_runs _ rfl).imp fun _ h => ⟨h.1, h.2.1⟩,
    (bfld_runs _ (by decide +kernel)).imp fun _ h => ⟨h.1, h.2.1⟩⟩

theorem witness_GmulIsTheFieldProduct :
    Invariant field ∧ field.err = .ok ∧ field.fv = true ∧ 282 < field.p :=
  ⟨invariant_field, by decide +kernel⟩

/-- The least and the greatest `x`. -/
theorem witness_RdlogReadsTheDiscreteLog :
    Invariant field ∧ field.err = .ok ∧ field.fv = true ∧ 1 < field.p ∧ 1 ≤ 282 ∧ 282 < field.p :=
  ⟨invariant_field, by decide +kernel⟩

/-- The last readable entry, and the last exponent of the first copy. -/
theorem witness_RdpowReadsThePower :
    Invariant field ∧ field.err = .ok ∧ field.fv = true ∧ 563 < 2 * (field.p - 1) ∧ 281 < 2 * (field.p - 1) ∧
    281 ≤ field.p - 2 :=
  ⟨invariant_field, by decide +kernel⟩

/-- The lengths 1 and 128. -/
theorem witness_BgenBuildsTheProductOfTheRoots :
    Invariant field ∧ field.err = .ok ∧ field.fv = true ∧ 1 ≤ 1 ∧ 1 ≤ 128 ∧ 128 ≤ 128 :=
  ⟨invariant_field, by decide +kernel⟩

theorem witness_BgenFirstCases :
    (Invariant field ∧ field.err = .ok ∧ field.fv = true ∧ field.root = 3 ∧ field.msel = 0) ∧
    (Invariant field929 ∧ field929.err = .ok ∧ field929.fv = true ∧ field929.root = 3 ∧
      field929.msel = 1) ∧ 1 ≤ 4 :=
  ⟨⟨invariant_field, by decide +kernel⟩, ⟨invariant_field929, by decide +kernel⟩, by decide⟩

theorem witness_GloadStartsALoad :
    StorageWf field ∧ field.err = .ok ∧ field.fv = true ∧ 1 ≤ 128 ∧ 128 ≤ 128 :=
  ⟨invariant_field.storage_wf, by decide +kernel⟩

theorem wf_load : StorageWf load :=
  storageWf_iff.2 ⟨wf_field.1, wf_field.2, by decide, by decide +kernel⟩

/-- The last push of a load of 2, and a push that is not the last. -/
theorem witness_GpushWritesTheNextCoefficient :
    (StorageWf load ∧ load.err = .ok ∧ load.gld = true ∧ 282 < load.p ∧ load.gptr.toNat ≤ 128 ∧
      load.gptr.toNat + 1 = load.n.toNat) ∧
    (StorageWf { load with n := 3 } ∧ ({ load with n := 3 } : State).gptr.toNat + 1 ≠ ({ load with n := 3 } : State).n.toNat) :=
  ⟨⟨wf_load, by decide +kernel⟩, storageWf_iff.2 (storageWf_iff.1 wf_load), by decide⟩

/-- One coefficient, and 128. -/
theorem witness_LdgenLoadsTheCoefficients :
    StorageWf field ∧ field.err = .ok ∧ field.fv = true ∧
    (1 ≤ [282].length ∧ ∀ c ∈ [282], c < field.p) ∧
    ((List.replicate 128 282).length ≤ 128 ∧ ∀ c ∈ List.replicate 128 282, c < field.p) :=
  ⟨invariant_field.storage_wf, by decide +kernel⟩

theorem witness_RdgReadsTheCoefficient :
    gen.err = .ok ∧ gen.gv = true ∧ 0 ≤ gen.n.toNat ∧ 3 ≤ gen.n.toNat ∧ 3 ≤ 128 := by decide +kernel

theorem witness_EinitClearsTheAccumulator :
    StorageWf gen ∧ gen.err = .ok ∧ gen.gv = true ∧ gen.n.toNat ≤ 128 :=
  ⟨invariant_gen.storage_wf, by decide +kernel⟩

theorem witness_EdataIsTheShiftRegisterStep :
    Invariant enc ∧ enc.err = .ok ∧ enc.phase = .encoding ∧ 282 < enc.p ∧
    12 = (282 + (enc.acc.read (enc.n.toNat - 1)).toNat) % enc.p :=
  ⟨invariant_enc, by decide +kernel⟩

theorem witness_EfinNegatesTheRemainder : Invariant enc ∧ enc.err = .ok ∧ enc.phase = .encoding :=
  ⟨invariant_enc, by decide +kernel⟩

theorem witness_AccumulatorReads :
    (fin.err = .ok ∧ 2 < fin.n.toNat ∧ 2 < 128 ∧ fin.phase = .done) ∧
    (enc.err = .ok ∧ 0 < enc.n.toNat ∧ enc.phase ≠ .idle) := by decide +kernel

/-- No data, and data up to the greatest field value. -/
theorem witness_EncodingHoldsTheRemainder :
    Invariant gen ∧ gen.err = .ok ∧ gen.gv = true ∧ (∀ d ∈ ([] : List Nat), d < gen.p) ∧ ∀ d ∈ [1, 0, 282], d < gen.p :=
  ⟨invariant_gen, by decide +kernel⟩

theorem witness_EncodeGivesAMultipleOfTheGenerator :
    Invariant gen ∧ gen.err = .ok ∧ gen.gv = true ∧ ∀ d ∈ [1, 2, 3], d < gen.p :=
  ⟨invariant_gen, by decide +kernel⟩

theorem witness_EncodeIsEncodeRs : Invariant gen ∧ gen.err = .ok ∧ gen.gv = true ∧ ∀ d ∈ [282, 282], d < gen.p :=
  ⟨invariant_gen, by decide +kernel⟩

theorem witness_BuiltCodeVanishesAtTheRoots :
    Invariant field ∧ field.err = .ok ∧ field.fv = true ∧ 1 ≤ 3 ∧ 3 ≤ 128 ∧ ∀ d ∈ [1, 2, 3], d < field.p :=
  ⟨invariant_field, by decide +kernel⟩

theorem invariant_gen_offered (sigs : List PortIn) : Invariant { gen with port := sigs } :=
  invariant_gen.port gen.rsp sigs
theorem invariant_enc_offered (sigs : List PortIn) : Invariant { enc with port := sigs } :=
  invariant_enc.port enc.rsp sigs

theorem witness_EveryStepKeepsTheInvariants :
    Invariant { gen with port := [.offer 0x30000000] } ∧
    ∃ t, step { gen with port := [.offer 0x30000000] } = .next t ∧ t.phase = .encoding :=
  ⟨invariant_gen_offered _, runs_of (by decide +kernel)⟩

theorem witness_ReachableStatesSatisfyTheInvariants :
    Reachable { State.reset with err := .noGen, errcmd := 0x30000000, rsp := some ⟨.noGen, 0⟩ } :=
  ⟨[.offer 0x30000000], 1, rfl⟩

theorem witness_NoStepStopsUnderTheInvariants : Invariant { enc with port := [.offer 0x31001000] } :=
  invariant_enc_offered _

theorem gen_idle : gen.phase = .idle := by decide +kernel

/-- Two states that differ in storage that nothing may read: the accumulator in phase `IDLE`. -/
theorem witness_UnwrittenStorageIsNeverObserved :
    Invariant gen ∧ Invariant { gen with acc := [(0, 1023)] } ∧ SameVisible gen { gen with acc := [(0, 1023)] } ∧
    ∃ s', step gen = .next s' := by
  refine ⟨invariant_gen, ?_, ?_, (runs_of (P := fun _ => True) (by decide +kernel)).imp fun _ h => h.1⟩
  · obtain ⟨h1, h2, h3, h4, h5, h6, h7, h8, h9, h10, h11, h12, h13, h14, h15, h16, h17⟩ := invariant_gen
    refine ⟨h1, h2, h3, h4, h5, h6, h7, fun h => (h8 h).congr rfl rfl rfl rfl, h9, h10, fun h => absurd gen_idle h,
      h12, h13, h14, h15, h16, ?_⟩
    rw [storageWf_iff] at h17 ⊢
    exact ⟨h17.1, h17.2.1, h17.2.2.1, by decide⟩
  · constructor <;> first | rfl | (intros; rfl) | skip
    · intros; exact ⟨fun _ _ => rfl, rfl⟩
    · intro h; exact absurd gen_idle h

/-- A success and a failure. -/
theorem witness_PhaseTransitions :
    (∃ t, exec .einit gen = .next t ∧ t.rsp = some ⟨.ok, 0⟩) ∧
    ∃ t, exec .einit State.reset = .next t ∧ t.rsp = some ⟨.noGen, 0⟩ :=
  ⟨runs_of (by decide +kernel), runs_of (by decide +kernel)⟩

/-- One command for each of the six clauses. -/
theorem witness_FlagWriters :
    (State.reset.fv = false ∧ ∃ t, exec (.bfld 0 3) State.reset = .next t ∧ t.fv = true) ∧
    (field.fv = true ∧ ∃ t, exec .rst field = .next t ∧ t.fv = false) ∧
    (load.gv = false ∧ ∃ t, exec (.gpush 5) load = .next t ∧ t.gv = true) ∧
    (gen.gv = true ∧ ∃ t, exec (.gload 2) gen = .next t ∧ t.gv = false) ∧
    (field.gld = false ∧ ∃ t, exec (.gload 2) field = .next t ∧ t.gld = true) ∧
    (load.gld = true ∧ ∃ t, exec (.gpush 5) load = .next t ∧ t.gld = false) :=
  ⟨⟨rfl, (bfld_runs _ rfl).imp fun _ h => ⟨h.1, h.2.2⟩⟩, ⟨by decide +kernel, runs_of (by decide +kernel)⟩,
    ⟨by decide +kernel, runs_of (by decide +kernel)⟩, ⟨by decide +kernel, runs_of (by decide +kernel)⟩,
    ⟨by decide +kernel, runs_of (by decide +kernel)⟩, by decide +kernel, runs_of (by decide +kernel)⟩

/-- A command that changes `G` and `N`, one that changes `ACC`, one that changes `GPTR`, one that changes `ROOT`. -/
theorem witness_StorageAndRegisterWriters :
    (∃ t, exec (.gload 2) { gen with g := [] } = .next t ∧ t.g ≠ [] ∧ t.n ≠ 3) ∧
    (∃ t, exec .einit enc = .next t ∧ t.acc ≠ enc.acc) ∧
    (∃ t, exec (.gpush 5) load = .next t ∧ t.gptr ≠ load.gptr) ∧
    ∃ t, exec .rst field = .next t ∧ t.root ≠ field.root :=
  ⟨runs_of (by decide +kernel), runs_of (by decide +kernel), runs_of (by decide +kernel), runs_of (by decide +kernel)⟩

theorem witness_ReadsChangeNothing :
    readsOnly (.rdchk 2) = true ∧ ∃ t, exec (.rdchk 2) fin = .next t ∧ t.rsp = some ⟨.ok, 189⟩ :=
  ⟨rfl, runs_of (by decide +kernel)⟩

end Sys2Proof.Tests
end

section
/-! SUPPORT. What a command is made of, said once for all sixteen: its checks, the entries it must find, its effect on
the state and the value it returns; and from these, what `exec` does (`exec_eq`) and what a next state can be
(`exec_next`). Proofs about every command split over these and do not unfold the meanings. -/

namespace Sys2Proof.Machine

/-! ## When a check passes -/

section Checks

variable (s : State)

@[simp] theorem needsField_passes : s.needsField.1 = false ↔ s.fv = true := by simp [State.needsField]

@[simp] theorem needsGenerator_passes : s.needsGenerator.1 = false ↔ s.gv = true := by simp [State.needsGenerator]

@[simp] theorem needsLoad_passes : s.needsLoad.1 = false ↔ s.gld = true := by simp [State.needsLoad]

@[simp] theorem needsEncoding_passes : s.needsEncoding.1 = false ↔ s.phase = .encoding := by
  simp [State.needsEncoding]

@[simp] theorem needsDone_passes : s.needsDone.1 = false ↔ s.phase = .done := by simp [State.needsDone]

@[simp] theorem needsEncode_passes : s.needsEncode.1 = false ↔ s.phase ≠ .idle := by simp [State.needsEncode]

@[simp] theorem notFieldValue_passes (x : Nat) : s.notFieldValue x = false ↔ x < s.p := by
  simp [State.notFieldValue]

@[simp] theorem noLogIndex_passes (x : Nat) : s.noLogIndex x = false ↔ 1 ≤ x ∧ x < s.p := by
  simp [State.noLogIndex, Nat.one_le_iff_ne_zero]

@[simp] theorem noPowIndex_passes (i : Nat) : s.noPowIndex i = false ↔ i < 2 * (s.p - 1) := by
  simp [State.noPowIndex]

@[simp] theorem badLength_passes (n : Nat) : badLength n = false ↔ 1 ≤ n ∧ n ≤ 128 := by
  simp [badLength, Config.eccMin, Config.eccMax, Nat.one_le_iff_ne_zero]

@[simp] theorem noCoefficient_passes (k : Nat) : s.noCoefficient k = false ↔ k ≤ s.n.toNat := by
  simp [State.noCoefficient]

@[simp] theorem noAccEntry_passes (j : Nat) : s.noAccEntry j = false ↔ j < s.n.toNat := by
  simp [State.noAccEntry]

@[simp] theorem noModulus_passes (m : Nat) : noModulus m = false ↔ m ≤ 1 := by simp [noModulus]

@[simp] theorem badRoot_passes (q r : Nat) : badRoot q r = false ↔ 1 ≤ r ∧ r < q := by
  simp [badRoot, Nat.one_le_iff_ne_zero]

end Checks

/-! ## The parts of a command -/

/-- The commands that a halted block executes normally (R45, R112). -/
def ignoresHalt : Instr → Bool
  | .rst => true
  | .rdr sel => decide (sel ≤ 6)
  | _ => false

/-- The checks of a command, in the order of its rule (R110). -/
def checksOf : Instr → State → List (Bool × ErrCode)
  | .nop, _ => []
  | .rst, _ => []
  | .rdr sel, _ => [(decide (6 < sel), .range)]
  | .bfld msel root, _ =>
    [(noModulus msel, .range), (badRoot (modulus (BitVec.ofNat 1 msel)) root, .range),
      (!isPrimitive (modulus (BitVec.ofNat 1 msel)) root, .root)]
  | .gmul a b, s => [s.needsField, (s.notFieldValue a || s.notFieldValue b, .range)]
  | .rdlog x, s => [s.needsField, (s.noLogIndex x, .range)]
  | .rdpow i, s => [s.needsField, (s.noPowIndex i, .range)]
  | .bgen n, s => [s.needsField, (badLength n, .range)]
  | .gload n, s => [s.needsField, (badLength n, .range)]
  | .gpush v, s => [s.needsLoad, (s.notFieldValue v, .range)]
  | .rdg k, s => [s.needsGenerator, (s.noCoefficient k, .range)]
  | .einit, s => [s.needsGenerator]
  | .edata d, s => [s.needsEncoding, (s.notFieldValue d, .range)]
  | .efin, s => [s.needsEncoding]
  | .rdchk j, s => [s.needsDone, (s.noAccEntry j, .range)]
  | .rdacc j, s => [s.needsEncode, (s.noAccEntry j, .range)]

/-- The condition under which every check of a command passes. -/
def Passes : Instr → State → Prop
  | .nop, _ => True
  | .rst, _ => True
  | .rdr sel, _ => sel ≤ 6
  | .bfld msel root, _ =>
    msel ≤ 1 ∧ (1 ≤ root ∧ root < modulus (BitVec.ofNat 1 msel)) ∧
      isPrimitive (modulus (BitVec.ofNat 1 msel)) root = true
  | .gmul a b, s => s.fv = true ∧ a < s.p ∧ b < s.p
  | .rdlog x, s => s.fv = true ∧ 1 ≤ x ∧ x < s.p
  | .rdpow i, s => s.fv = true ∧ i < 2 * (s.p - 1)
  | .bgen n, s => s.fv = true ∧ 1 ≤ n ∧ n ≤ 128
  | .gload n, s => s.fv = true ∧ 1 ≤ n ∧ n ≤ 128
  | .gpush v, s => s.gld = true ∧ v < s.p
  | .rdg k, s => s.gv = true ∧ k ≤ s.n.toNat
  | .einit, s => s.gv = true
  | .edata d, s => s.phase = .encoding ∧ d < s.p
  | .efin, s => s.phase = .encoding
  | .rdchk j, s => s.phase = .done ∧ j < s.n.toNat
  | .rdacc j, s => s.phase ≠ .idle ∧ j < s.n.toNat

theorem checksOf_none_iff (i : Instr) (s : State) : firstFailure (checksOf i s) = none ↔ Passes i s := by
  cases i <;> simp [checksOf, Passes, firstFailure_none_iff]

/-- The storage space whose entries a command must find (R30). -/
def spaceOf : Instr → Space
  | .gpush _ => .g
  | .rdg _ => .g
  | _ => .acc

/-- Every entry that the command reaches exists (R30); a command that can reach no other entry tests nothing. -/
def entriesExist : Instr → State → Bool
  | .gpush _, s => decide (s.gptr.toNat < Config.gDepth)
  | .rdg k, _ => decide (k < Config.gDepth)
  | .einit, s => s.accExists
  | .edata _, s => s.accTopExists
  | .efin, s => s.accExists
  | .rdchk j, _ => decide (j < Config.accDepth)
  | .rdacc j, _ => decide (j < Config.accDepth)
  | _, _ => true

/-- What a successful command does to the state, all but the response. -/
def effectOf : Instr → State → State
  | .rst, s => s.resetRegisters
  | .bfld msel root, s =>
    { s with
      log := buildLog (modulus (BitVec.ofNat 1 msel)) root s.log
      pow := buildPow (modulus (BitVec.ofNat 1 msel)) root s.pow
      msel := BitVec.ofNat 1 msel, root := BitVec.ofNat 10 root
      fv := true, gv := false, gld := false, n := 0, gptr := 0, phase := .idle }
  | .bgen n, s =>
    { s with
      g := s.g.writeFrom 0 (s.generator n), n := BitVec.ofNat 8 n
      gv := true, gld := false, gptr := 0, phase := .idle }
  | .gload n, s =>
    { s with n := BitVec.ofNat 8 n, gptr := 0, g := s.g.write n 1, gld := true, gv := false, phase := .idle }
  | .gpush v, s => { s with g := s.g.write s.gptr.toNat (BitVec.ofNat 10 v) }.advanceLoad
  | .einit, s => { s with acc := s.acc.writeFrom 0 (List.replicate s.n.toNat 0), phase := .encoding }
  | .edata d, s =>
    { s with acc := s.acc.writeFrom 0 (s.lfsrStep (s.g.span s.n.toNat) (s.acc.span s.n.toNat) d) }
  | .efin, s => { s with acc := s.acc.writeFrom 0 ((s.acc.span s.n.toNat).map s.negate), phase := .done }
  | .nop, s => s
  | .rdr _, s => s
  | .gmul _ _, s => s
  | .rdlog _, s => s
  | .rdpow _, s => s
  | .rdg _, s => s
  | .rdchk _, s => s
  | .rdacc _, s => s

/-- The value that a successful command responds. -/
def valueOf : Instr → State → Word
  | .rdr sel, s => (s.register sel).getD 0
  | .gmul a b, s => word32 (s.gfMul a b)
  | .rdlog x, s => zext32 (s.log.read x)
  | .rdpow i, s => zext32 (s.pow.read i)
  | .rdg k, s => zext32 (s.g.read k)
  | .rdchk j, s => zext32 (s.acc.read j)
  | .rdacc j, s => zext32 (s.acc.read j)
  | _, _ => 0

/-- A command without the halt test: the first check that fails ends it, else it takes effect and responds (R110). -/
def runOf (i : Instr) (s : State) : Result :=
  match firstFailure (checksOf i s) with
  | some e => fail s (encode i) e
  | none => ifExists (spaceOf i) (entriesExist i s) (respond (effectOf i s) (valueOf i s))

/-! ## What a push does to the flags and the pointer: only the `N`-th changes a flag (R62) -/

section Push

variable (s : State)

@[simp] theorem advanceLoad_gv : s.advanceLoad.gv = (s.gv || decide (s.gptr.toNat + 1 = s.n.toNat)) := by
  unfold State.advanceLoad; split <;> simp [*]

@[simp] theorem advanceLoad_gld : s.advanceLoad.gld = (s.gld && !decide (s.gptr.toNat + 1 = s.n.toNat)) := by
  unfold State.advanceLoad; split <;> simp [*]

@[simp] theorem advanceLoad_gptr :
    s.advanceLoad.gptr = if s.gptr.toNat + 1 = s.n.toNat then 0 else s.gptr + 1 := by
  unfold State.advanceLoad; split <;> rfl

/-- The `N`-th push completes the generator (R62). -/
theorem effectOf_gpush_last {v : Nat} (h : s.gptr.toNat + 1 = s.n.toNat) :
    effectOf (.gpush v) s =
      { s with g := s.g.write s.gptr.toNat (BitVec.ofNat 10 v), gv := true, gld := false, gptr := 0 } := if_pos h

/-- Any other push moves the pointer on by 1 (R62). -/
theorem effectOf_gpush_more {v : Nat} (h : s.gptr.toNat + 1 ≠ s.n.toNat) :
    effectOf (.gpush v) s =
      { s with g := s.g.write s.gptr.toNat (BitVec.ofNat 10 v), gptr := s.gptr + 1 } := if_neg h

end Push

/-! ## What `exec` does -/

/-- `RDR sel` reads one of the registers 0 to 6 (R20). -/
theorem register_eq_some (s : State) {sel : Nat} (h : sel ≤ 6) : ∃ v, s.register sel = some v := by
  interval_cases sel <;> exact ⟨_, rfl⟩

theorem register_eq_none (s : State) {sel : Nat} (h : 6 < sel) : s.register sel = none := by
  obtain ⟨k, rfl⟩ : ∃ k, sel = k + 7 := ⟨sel - 7, by omega⟩
  rfl

/-- `RDR` of a register responds it, halted or not (R83). -/
theorem exec_rdr_register {s : State} {sel : Nat} {v : Word} (h : s.register sel = some v) :
    exec (.rdr sel) s = .next (s.answered v) := by
  show execRdr sel s = _
  simp only [execRdr, h]; rfl

/-- `RDR` of a number that names no register fails, or is answered `E_HALTED` (R83). -/
theorem exec_rdr_none {s : State} {sel : Nat} (h : s.register sel = none) :
    exec (.rdr sel) s = unlessHalted s (fail s (encode (.rdr sel)) .range) := by
  show execRdr sel s = _
  simp only [execRdr, h]

/-- R45: the halt test stands before every command but `RST` and `RDR sel` with `sel <= 6`. -/
theorem exec_eq (i : Instr) (s : State) :
    exec i s = if ignoresHalt i = true ∨ s.err = .ok then runOf i s else answerHalted s := by
  have tested : ∀ r : Result, ignoresHalt i = false → r = unlessHalted s (runOf i s) →
      r = if ignoresHalt i = true ∨ s.err = .ok then runOf i s else answerHalted s := by
    rintro _ h rfl; simp [h, unlessHalted]
  cases i with
  | rst => rfl
  | rdr sel =>
    rcases Nat.lt_or_ge 6 sel with h | h
    · refine tested _ (by simp [ignoresHalt, h]) ?_
      rw [exec_rdr_none (register_eq_none s h)]
      simp [runOf, checksOf, h]
    · obtain ⟨v, hv⟩ := register_eq_some s h
      rw [exec_rdr_register hv, if_pos (.inl (by simp [ignoresHalt, h]))]
      have hc : firstFailure (checksOf (.rdr sel) s) = none := (checksOf_none_iff _ s).2 h
      simp only [runOf, hc, valueOf, hv]
      rfl
  | nop | bfld | gmul | rdlog | rdpow | bgen | gload | gpush | rdg | einit | edata | efin | rdchk | rdacc =>
    exact tested _ rfl rfl

/-- A command that a halted block executes has no check to fail (R112). -/
theorem checks_of_ignoresHalt {i : Instr} (h : ignoresHalt i = true) (s : State) :
    firstFailure (checksOf i s) = none := by
  cases i with
  | rst => rfl
  | rdr sel => exact (checksOf_none_iff _ s).2 (show sel ≤ 6 from of_decide_eq_true h)
  | nop | bfld | gmul | rdlog | rdpow | bgen | gload | gpush | rdg | einit | edata | efin | rdchk | rdacc =>
    cases h

/-- All that a command can do: answer `E_HALTED` (R112), fail with its first failing check (R111), or take effect. -/
theorem exec_next {i : Instr} {s t : State} (h : exec i s = .next t) :
    (s.err ≠ .ok ∧ t = s.answer .halted 0) ∨
    (s.err = .ok ∧ ∃ e, firstFailure (checksOf i s) = some e ∧ t = (s.latch e (encode i)).answer e 0) ∨
    (Passes i s ∧ t = (effectOf i s).answer .ok (valueOf i s)) := by
  rw [exec_eq] at h
  split at h
  · rename_i hi
    unfold runOf at h
    split at h
    · rename_i e hc
      have hs : s.err = .ok := hi.resolve_left fun h' => by simp [checks_of_ignoresHalt h'] at hc
      exact .inr (.inl ⟨hs, e, hc, (Host.Outcome.next.inj h).symm⟩)
    · rename_i hc
      exact .inr (.inr ⟨(checksOf_none_iff i s).1 hc, respond_next (ifExists_next h).2⟩)
  · rename_i hi
    exact .inl ⟨fun h' => hi (.inr h'), (Host.Outcome.next.inj h).symm⟩

/-- The checks of a command never name the code `OK`. -/
theorem checksOf_ne_ok (i : Instr) (s : State) {e : ErrCode} (h : firstFailure (checksOf i s) = some e) : e ≠ .ok := by
  have hm := firstFailure_some h
  rintro rfl
  cases i <;> simp [checksOf, State.needsField, State.needsGenerator, State.needsLoad, State.needsEncoding,
    State.needsDone, State.needsEncode] at hm

/-- A part of the state that neither an answer nor an error touches changes only by the command's effect. -/
theorem exec_changes {α : Type} (f : State → α) (ha : ∀ s e v, f (State.answer s e v) = f s)
    (hl : ∀ s e w, f (State.latch s e w) = f s) {i : Instr} {s t : State} (h : exec i s = .next t)
    (hne : f t ≠ f s) : f t = f (effectOf i s) := by
  obtain ⟨-, rfl⟩ | ⟨-, e, -, rfl⟩ | ⟨-, rfl⟩ := exec_next h
  · exact absurd (ha ..) hne
  · exact absurd ((ha ..).trans (hl ..)) hne
  · exact ha ..

end Sys2Proof.Machine
end

section
/-! PROOFS. The registers that `RDR` reads (R20 to R27). -/

namespace Sys2Proof.Machine

/-! ## The layout of `STATUS` (R21): skip the fields below, and the field wanted is the lowest -/

variable (s : State)

theorem status_phase : s.status.extractLsb' 0 2 = s.phase.code := BitVec.extractLsb'_append_eq_right

theorem status_fv : s.status.getLsbD 2 = s.fv := by
  simp only [State.status, BitVec.getLsbD_append]; simp

theorem status_gv : s.status.getLsbD 3 = s.gv := by
  simp only [State.status, BitVec.getLsbD_append]; simp

theorem status_gld : s.status.getLsbD 4 = s.gld := by
  simp only [State.status, BitVec.getLsbD_append]; simp

theorem status_msel : s.status.extractLsb' 5 1 = s.msel := by
  unfold State.status
  iterate 4 rw [BitVec.extractLsb'_append_eq_of_le (by decide)]
  exact BitVec.extractLsb'_append_eq_right

theorem status_reserved_low : s.status.extractLsb' 6 2 = 0 := by
  unfold State.status
  iterate 5 rw [BitVec.extractLsb'_append_eq_of_le (by decide)]
  exact BitVec.extractLsb'_append_eq_right

theorem status_err : s.status.extractLsb' 8 4 = s.err.code := by
  unfold State.status
  iterate 6 rw [BitVec.extractLsb'_append_eq_of_le (by decide)]
  exact BitVec.extractLsb'_append_eq_right

theorem status_reserved_high : s.status.extractLsb' 12 20 = 0 := by
  unfold State.status
  iterate 6 rw [BitVec.extractLsb'_append_eq_of_le (by decide)]
  exact BitVec.extractLsb'_append_eq_left

/-- Settles O21: register 0 is `STATUS`, read field by field. -/
theorem rdrReadsStatus : Obligations.RdrReadsStatus := by
  refine ⟨fun s => ⟨s.status, exec_rdr_register rfl, status_phase s, status_fv s, status_gv s, status_gld s,
    status_msel s, status_reserved_low s, status_err s, status_reserved_high s⟩, ⟨rfl, rfl, rfl⟩, ?_⟩
  exact exec_rdr_register rfl

/-- A field of the state read as a word is its number, zero-extended. -/
theorem zext32_eq_word32 {w : Nat} (v : BitVec w) : zext32 v = word32 v.toNat :=
  (BitVec.ofNat_toNat 32 v).symm

/-- Settles O22: registers 1 to 6 of the register map (R20). -/
theorem rdrReadsRegisters : Obligations.RdrReadsRegisters := by
  intro s
  refine ⟨fun h => exec_rdr_register ?_, fun h => exec_rdr_register ?_, exec_rdr_register ?_, exec_rdr_register ?_,
    exec_rdr_register ?_, exec_rdr_register rfl, exec_rdr_register rfl⟩
  · simp [State.register, State.p, modulus, h, Config.mod0]
  · simp [State.register, State.p, modulus, h, Config.mod1]
  · exact congrArg some (zext32_eq_word32 s.root)
  · exact congrArg some (zext32_eq_word32 s.n)
  · exact congrArg some (zext32_eq_word32 s.gptr)

end Sys2Proof.Machine
end

section
/-! PROOFS. Which commands change which part of the state (R10 to R16, R30): for each part, the commands whose effect
on it is not nothing. -/

namespace Sys2Proof.Machine

variable {i : Instr} {s : State}

/-! ## The phase (R12) -/

theorem effectOf_phase (i : Instr) (s : State) : (effectOf i s).phase = phaseAfter i s.phase := by
  cases i with
  | gpush v => exact State.advanceLoad_phase _
  | nop | rst | rdr | bfld | gmul | rdlog | rdpow | bgen | gload | rdg | einit | edata | efin | rdchk | rdacc => rfl

/-- Settles O48: an answer and an error keep the phase, and a success changes it as its effect does. -/
theorem phaseTransitions : Obligations.PhaseTransitions := by
  intro i s t r h hr
  obtain ⟨-, rfl⟩ | ⟨-, e, he, rfl⟩ | ⟨hc, rfl⟩ := exec_next h <;>
    rw [State.answer_rsp, Option.some.injEq] at hr <;> subst hr
  · exact ⟨nofun, fun _ => rfl⟩
  · exact ⟨fun h0 => absurd h0 (checksOf_ne_ok i s he), fun _ => rfl⟩
  · exact ⟨fun _ => ⟨effectOf_phase i s, by rintro rfl; exact hc⟩, fun h0 => absurd rfl h0⟩

/-! ## The flags (R11) -/

theorem effectOf_sets_fv (h0 : s.fv = false) (h1 : (effectOf i s).fv = true) : ∃ m r, i = .bfld m r := by
  cases i <;> simp [effectOf, h0] at h1 ⊢

theorem effectOf_clears_fv (h0 : s.fv = true) (h1 : (effectOf i s).fv = false) : i = .rst := by
  cases i <;> simp [effectOf, h0] at h1 ⊢

theorem effectOf_sets_gv (h0 : s.gv = false) (h1 : (effectOf i s).gv = true) :
    (∃ n, i = .bgen n) ∨ ((∃ v, i = .gpush v) ∧ s.gptr.toNat + 1 = s.n.toNat) := by
  cases i <;> simp [effectOf, h0] at h1 ⊢
  case gpush v => exact h1

theorem effectOf_clears_gv (h0 : s.gv = true) (h1 : (effectOf i s).gv = false) :
    (∃ m r, i = .bfld m r) ∨ (∃ n, i = .gload n) ∨ i = .rst := by
  cases i <;> simp [effectOf, h0] at h1 ⊢

theorem effectOf_sets_gld (h0 : s.gld = false) (h1 : (effectOf i s).gld = true) : ∃ n, i = .gload n := by
  cases i <;> simp [effectOf, h0] at h1 ⊢

theorem effectOf_clears_gld (h0 : s.gld = true) (h1 : (effectOf i s).gld = false) :
    ((∃ v, i = .gpush v) ∧ s.gptr.toNat + 1 = s.n.toNat) ∨ (∃ n, i = .bgen n) ∨ (∃ m r, i = .bfld m r) ∨
      i = .rst := by
  cases i <;> simp [effectOf, h0] at h1 ⊢
  case gpush v => exact h1

/-- A flag that a command turns over is turned over by the command's effect. -/
theorem exec_turns (f : State → Bool) (ha : ∀ s e v, f (State.answer s e v) = f s)
    (hl : ∀ s e w, f (State.latch s e w) = f s) {t : State} (h : exec i s = .next t) {b : Bool}
    (h0 : f s = !b) (h1 : f t = b) : f (effectOf i s) = b := by
  rw [← exec_changes f ha hl h (by simp [h0, h1]), h1]

/-- Settles O49: a flag turns over only by the effect of a command. -/
theorem flagWriters : Obligations.FlagWriters := by
  intro i s t h
  have fv {b} := @exec_turns i s State.fv (fun _ _ _ => rfl) (fun _ _ _ => rfl) t h b
  have gv {b} := @exec_turns i s State.gv (fun _ _ _ => rfl) (fun _ _ _ => rfl) t h b
  have gld {b} := @exec_turns i s State.gld (fun _ _ _ => rfl) (fun _ _ _ => rfl) t h b
  exact ⟨fun h0 h1 => effectOf_sets_fv h0 (fv h0 h1), fun h0 h1 => effectOf_clears_fv h0 (fv h0 h1),
    fun h0 h1 => effectOf_sets_gv h0 (gv h0 h1), fun h0 h1 => effectOf_clears_gv h0 (gv h0 h1),
    fun h0 h1 => effectOf_sets_gld h0 (gld h0 h1), fun h0 h1 => effectOf_clears_gld h0 (gld h0 h1)⟩

/-! ## The storage spaces and the scalar registers (R10, R30) -/

theorem effectOf_writes_log (h : (effectOf i s).log ≠ s.log) : ∃ m r, i = .bfld m r := by
  cases i <;> simp [effectOf] at h ⊢

theorem effectOf_writes_pow (h : (effectOf i s).pow ≠ s.pow) : ∃ m r, i = .bfld m r := by
  cases i <;> simp [effectOf] at h ⊢

theorem effectOf_writes_g (h : (effectOf i s).g ≠ s.g) :
    (∃ n, i = .bgen n) ∨ (∃ n, i = .gload n) ∨ ∃ v, i = .gpush v := by
  cases i <;> simp [effectOf] at h ⊢

theorem effectOf_writes_acc (h : (effectOf i s).acc ≠ s.acc) : i = .einit ∨ (∃ d, i = .edata d) ∨ i = .efin := by
  cases i <;> simp [effectOf] at h ⊢

theorem effectOf_writes_msel (h : (effectOf i s).msel ≠ s.msel) : (∃ m r, i = .bfld m r) ∨ i = .rst := by
  cases i <;> simp [effectOf] at h ⊢

theorem effectOf_writes_root (h : (effectOf i s).root ≠ s.root) : (∃ m r, i = .bfld m r) ∨ i = .rst := by
  cases i <;> simp [effectOf] at h ⊢

theorem effectOf_writes_n (h : (effectOf i s).n ≠ s.n) :
    (∃ n, i = .bgen n) ∨ (∃ n, i = .gload n) ∨ (∃ m r, i = .bfld m r) ∨ i = .rst := by
  cases i <;> simp [effectOf] at h ⊢

theorem effectOf_writes_gptr (h : (effectOf i s).gptr ≠ s.gptr) :
    (∃ n, i = .gload n) ∨ (∃ v, i = .gpush v) ∨ (∃ n, i = .bgen n) ∨ (∃ m r, i = .bfld m r) ∨ i = .rst := by
  cases i <;> simp [effectOf] at h ⊢

/-- A part of the state that a command changes is changed by the command's effect. -/
theorem exec_writes {α : Type} (f : State → α) (ha : ∀ s e v, f (State.answer s e v) = f s)
    (hl : ∀ s e w, f (State.latch s e w) = f s) {t : State} (h : exec i s = .next t) (hne : f t ≠ f s) :
    f (effectOf i s) ≠ f s := exec_changes f ha hl h hne ▸ hne

/-- Settles O50: a part of the state changes only by the effect of a command. -/
theorem storageAndRegisterWriters : Obligations.StorageAndRegisterWriters := by
  intro i s t h
  have writes {α : Type} (f : State → α) (ha : ∀ s e v, f (State.answer s e v) = f s)
      (hl : ∀ s e w, f (State.latch s e w) = f s) := exec_writes f ha hl h
  refine ⟨?_, fun hg => effectOf_writes_g (writes State.g (fun _ _ _ => rfl) (fun _ _ _ => rfl) hg),
    fun ha => effectOf_writes_acc (writes State.acc (fun _ _ _ => rfl) (fun _ _ _ => rfl) ha), ?_,
    fun hn => effectOf_writes_n (writes State.n (fun _ _ _ => rfl) (fun _ _ _ => rfl) hn),
    fun hp => effectOf_writes_gptr (writes State.gptr (fun _ _ _ => rfl) (fun _ _ _ => rfl) hp)⟩
  · rintro (hl | hp)
    · exact effectOf_writes_log (writes State.log (fun _ _ _ => rfl) (fun _ _ _ => rfl) hl)
    · exact effectOf_writes_pow (writes State.pow (fun _ _ _ => rfl) (fun _ _ _ => rfl) hp)
  · rintro (hm | hr)
    · exact effectOf_writes_msel (writes State.msel (fun _ _ _ => rfl) (fun _ _ _ => rfl) hm)
    · exact effectOf_writes_root (writes State.root (fun _ _ _ => rfl) (fun _ _ _ => rfl) hr)

end Sys2Proof.Machine
end

section
/-! PROOFS. R19: what the storage holds outside the guarded entries is never observed. A command's checks, its value and
its effect are the same in two states that a host cannot tell apart, since each reads only guarded entries: the tables
of a field held, the generator held, the accumulator of an encode. -/

namespace Sys2Proof.Machine

variable {s t : State}

/-! ## Storage operations on two spaces that agree where it matters -/

/-- Entries written to both spaces agree, and the others if they did before. -/
theorem read_writeFrom_congr {m m' : Storage} (hm : m.sorted) (hm' : m'.sorted) (l : List Nat) {a : Nat}
    (h : l.length ≤ a → m.read a = m'.read a) : (m.writeFrom 0 l).read a = (m'.writeFrom 0 l).read a := by
  rw [Storage.read_writeFrom m hm, Storage.read_writeFrom m' hm']
  split
  · rfl
  · exact h (by omega)

theorem read_write_congr {m m' : Storage} (hm : m.sorted) (hm' : m'.sorted) (k : Nat) (v : Entry) {a : Nat}
    (h : a ≠ k → m.read a = m'.read a) : (m.write k v).read a = (m'.write k v).read a := by
  rw [Storage.read_write m hm, Storage.read_write m' hm']
  split
  · rfl
  · exact h ‹_›

theorem span_congr {m m' : Storage} {n : Nat} (h : ∀ k, k < n → m.read k = m'.read k) : m.span n = m'.span n :=
  List.map_congr_left fun k hk => by rw [h k (List.mem_range.1 hk)]

/-- Every entry of the log table after a build is written by it (R51). -/
theorem read_buildLog_congr {q r : Nat} (hq : q.Prime) (h1 : 1 ≤ r) (h2 : r < q) (hp : isPrimitive q r = true)
    {m m' : Storage} (hm : m.sorted) (hm' : m'.sorted) {x : Nat} (hx1 : 1 ≤ x) (hx2 : x < q) :
    (buildLog q r m).read x = (buildLog q r m').read x := by
  obtain ⟨j, hj, rfl⟩ := List.getElem_of_mem ((mem_powers_iff hq h1 h2 hp x).2 ⟨hx1, hx2⟩)
  rw [length_powers] at hj
  rw [getElem_powers q r hq.one_lt, read_buildLog hq h1 h2 hp m hm j (by omega),
    read_buildLog hq h1 h2 hp m' hm' j (by omega)]

/-- Every readable entry of the antilog table after a build is written by it (R51). -/
theorem read_buildPow_congr {q r : Nat} (hq : q.Prime) (h1 : 1 ≤ r) (h2 : r < q) {m m' : Storage} (hm : m.sorted)
    (hm' : m'.sorted) {i : Nat} (hi : i < 2 * (q - 1)) : (buildPow q r m).read i = (buildPow q r m').read i := by
  rw [read_buildPow hq h1 h2 m hm, read_buildPow hq h1 h2 m' hm', if_pos hi, if_pos hi]

/-! ## Computing in two fields that are the same -/

/-- Both products are the product modulo `p` (R57). -/
theorem gfMul_congr (hs : FieldOk s) (ht : FieldOk t) (hp : s.p = t.p) {a b : Nat} (ha : a < s.p) (hb : b < s.p) :
    s.gfMul a b = t.gfMul a b := by
  rw [gfMul_eq hs ha hb, gfMul_eq ht (hp ▸ ha) (hp ▸ hb), hp]

theorem mulRoot_congr (hs : FieldOk s) (ht : FieldOk t) (hp : s.p = t.p) {h : List Nat} (hne : h ≠ [])
    (hh : ∀ k, h.getD k 0 < s.p) {r : Nat} (hr : r < s.p) : s.mulRoot h r = t.mulRoot h r := by
  have hlen : (s.mulRoot h r).length = (t.mulRoot h r).length := by
    rw [length_mulRoot h r hne, length_mulRoot h r hne]
  refine List.ext_getElem hlen fun k hk hk' => ?_
  rw [← List.getD_eq_getElem _ 0 hk, ← List.getD_eq_getElem _ 0 hk']
  cases k with
  | zero => exact gfMul_congr hs ht hp (hh 0) hr
  | succ k =>
    rw [length_mulRoot h r hne] at hk
    rw [getD_mulRoot_succ h r k (by omega), getD_mulRoot_succ h r k (by omega),
      gfMul_congr hs ht hp (hh (k + 1)) hr, hp]

/-- Step A multiplies the same roots in (R60). -/
theorem stepA_congr (hs : FieldOk s) (ht : FieldOk t) (hp : s.p = t.p) (hr : s.root = t.root) {n : Nat}
    (hn : n ≤ 128) : s.stepA n = t.stepA n := by
  have hp283 := s.p_ge
  induction n with
  | zero => rfl
  | succ n ih =>
    have hroot : (s.pow.read (Config.genFirstExp + n)).toNat = (t.pow.read (Config.genFirstExp + n)).toNat := by
      rw [root_of_pass hs (by omega), root_of_pass ht (by omega), hr, hp]
    have hlt : (s.pow.read (Config.genFirstExp + n)).toNat < s.p := by
      rw [root_of_pass hs (by omega)]; exact Nat.mod_lt _ s.p_prime.pos
    rw [stepA_succ, stepA_succ, ← ih (by omega), ← hroot]
    exact mulRoot_congr hs ht hp (stepA_ne_nil n) (stepA_spec hs n (by omega)).1 hlt

theorem generator_congr (hs : FieldOk s) (ht : FieldOk t) (hp : s.p = t.p) (hr : s.root = t.root) {n : Nat}
    (hn : n ≤ 128) : s.generator n = t.generator n := by
  simp only [State.generator, State.stepB, stepA_congr hs ht hp hr hn, hp]

theorem lfsrStep_congr (hs : FieldOk s) (ht : FieldOk t) (hp : s.p = t.p) {g : List Nat} (hg : ∀ c ∈ g, c < s.p)
    (acc : List Nat) (d : Nat) : s.lfsrStep g acc d = t.lfsrStep g acc d := by
  refine List.ext_getElem (by simp [State.lfsrStep]) fun j hj _ => ?_
  have hjg : j < g.length := by simp only [State.lfsrStep, List.length_zipWith] at hj; omega
  simp only [State.lfsrStep, List.getElem_zipWith, ← hp]
  rw [gfMul_congr hs ht hp (Nat.mod_lt _ s.p_prime.pos) (hg _ (List.getElem_mem hjg))]

theorem negate_congr (hp : s.p = t.p) : s.negate = t.negate := by
  funext a; simp only [State.negate, hp]

/-! ## What a host sees is the same: the registers, the guarded entries, the checks and the values -/

namespace SameVisible

variable (h : SameVisible s t)

include h

theorem p_eq : s.p = t.p := congrArg modulus h.msel

theorem answer (e : ErrCode) (v : Word) : SameVisible (s.answer e v) (t.answer e v) := { h with rsp := rfl }

theorem latch (e : ErrCode) (w : Word) : SameVisible (s.latch e w) (t.latch e w) :=
  { h with err := rfl, errcmd := rfl }

theorem withPort (sigs : List PortIn) : SameVisible { s with port := sigs } { t with port := sigs } :=
  { h with port := rfl }

theorem delivered : SameVisible { s with rsp := none } { t with rsp := none } := { h with rsp := rfl }

/-- After a reset of the registers no entry is guarded (R19, R82). -/
theorem resetRegisters : SameVisible s.resetRegisters t.resetRegisters where
  msel := rfl
  root := rfl
  n := rfl
  gptr := rfl
  phase := rfl
  err := rfl
  errcmd := rfl
  fv := rfl
  gv := rfl
  gld := rfl
  rsp := h.rsp
  port := h.port
  log h0 := nomatch h0
  pow h0 := nomatch h0
  g h0 := nomatch h0
  gLoaded h0 := nomatch h0
  acc h0 := absurd rfl h0

theorem register_eq (sel : Nat) : s.register sel = t.register sel := by
  unfold State.register
  split <;> simp only [State.status, h.p_eq, h.msel, h.root, h.n, h.gptr, h.phase, h.err, h.errcmd, h.fv, h.gv, h.gld]

theorem checksOf_eq (i : Instr) : checksOf i s = checksOf i t := by
  cases i <;> simp only [checksOf, State.needsField, State.needsGenerator, State.needsLoad,
    State.needsEncoding, State.needsDone, State.needsEncode, State.notFieldValue, State.noLogIndex,
    State.noPowIndex, State.noCoefficient, State.noAccEntry, h.p_eq, h.n, h.phase, h.fv, h.gv, h.gld]

theorem entriesExist_eq (i : Instr) : entriesExist i s = entriesExist i t := by
  cases i <;> simp only [entriesExist, State.accTopExists, State.accExists, h.n, h.gptr]

/-- A command whose checks pass reads only guarded entries for its value. -/
theorem valueOf_eq (hs : Invariant s) (ht : Invariant t) {i : Instr} (hc : Passes i s) :
    valueOf i s = valueOf i t := by
  cases i with
  | rdr sel => exact congrArg (·.getD 0) (h.register_eq sel)
  | gmul a b =>
    obtain ⟨hf, ha, hb⟩ := hc
    exact congrArg word32 (gfMul_congr (hs.field_ok hf) (ht.field_ok (h.fv ▸ hf)) h.p_eq ha hb)
  | rdlog x =>
    obtain ⟨hf, h1, hx⟩ := hc
    exact congrArg zext32 (h.log hf x h1 hx)
  | rdpow i =>
    obtain ⟨hf, hi⟩ := hc
    exact congrArg zext32 (h.pow hf i hi)
  | rdg k =>
    obtain ⟨hg, hk⟩ := hc
    exact congrArg zext32 (h.g hg k hk)
  | rdchk j =>
    obtain ⟨hd, hj⟩ := hc
    exact congrArg zext32 (h.acc (by simp [hd]) j hj)
  | rdacc j =>
    obtain ⟨hd, hj⟩ := hc
    exact congrArg zext32 (h.acc hd j hj)
  | nop | rst | bfld | bgen | gload | gpush | einit | edata | efin => rfl

end SameVisible

/-! ## The effect of a command writes the same into every entry that is guarded afterwards -/

namespace SameVisible

variable (h : SameVisible s t) (hs : Invariant s) (ht : Invariant t)

include h hs ht

/-- `BFLD` writes every entry of the tables that `FV` makes readable (R50, R51). -/
theorem bfld {msel root : Nat} (hc : Passes (.bfld msel root) s) :
    SameVisible (effectOf (.bfld msel root) s) (effectOf (.bfld msel root) t) := by
  obtain ⟨-, ⟨h1, h2⟩, hprim⟩ := hc
  have hq := modulus_prime (BitVec.ofNat 1 msel)
  exact { h with
    msel := rfl, root := rfl, n := rfl, gptr := rfl, phase := rfl, fv := rfl, gv := rfl, gld := rfl
    log := fun _ _ hx1 hx2 => read_buildLog_congr hq h1 h2 hprim hs.storage_wf.log ht.storage_wf.log hx1 hx2
    pow := fun _ _ hi => read_buildPow_congr hq h1 h2 hs.storage_wf.pow ht.storage_wf.pow hi
    g := nofun
    gLoaded := nofun
    acc := fun h0 => absurd rfl h0 }

/-- `BGEN n` writes every coefficient of the new generator (R60). -/
theorem bgen {n : Nat} (hc : Passes (.bgen n) s) :
    SameVisible (effectOf (.bgen n) s) (effectOf (.bgen n) t) := by
  obtain ⟨hf, -, hn⟩ := hc
  have hgen : s.generator n = t.generator n :=
    generator_congr (hs.field_ok hf) (ht.field_ok (h.fv ▸ hf)) h.p_eq h.root hn
  have hn' : (BitVec.ofNat 8 n).toNat = n := by rw [BitVec.toNat_ofNat]; omega
  refine { h with
    n := rfl, gptr := rfl, phase := rfl, gv := rfl, gld := rfl
    g := fun _ k hk => ?_
    gLoaded := nofun
    acc := fun h0 => absurd rfl h0 }
  replace hk : k ≤ n := hn' ▸ hk
  show (s.g.writeFrom 0 (s.generator n)).read k = (t.g.writeFrom 0 (t.generator n)).read k
  rw [← hgen]
  exact read_writeFrom_congr hs.storage_wf.g ht.storage_wf.g _ fun hl => by rw [length_generator] at hl; omega

/-- `GLOAD n` writes the only coefficient that the new load holds (R61). -/
theorem gload {n : Nat} (hc : Passes (.gload n) s) :
    SameVisible (effectOf (.gload n) s) (effectOf (.gload n) t) := by
  obtain ⟨-, -, hn⟩ := hc
  have hn' : (BitVec.ofNat 8 n).toNat = n := by rw [BitVec.toNat_ofNat]; omega
  exact { h with
    n := rfl, gptr := rfl, phase := rfl, gv := rfl, gld := rfl
    g := nofun
    gLoaded := fun _ => ⟨fun _ hk => absurd hk (Nat.not_lt_zero _),
      read_write_congr hs.storage_wf.g ht.storage_wf.g n 1 fun hne => absurd hn' hne⟩
    acc := fun h0 => absurd rfl h0 }

/-- `GPUSH v` writes the next coefficient; those loaded before it and the leading one agree already (R62). -/
theorem gpush {v : Nat} (hc : Passes (.gpush v) s) :
    SameVisible (effectOf (.gpush v) s) (effectOf (.gpush v) t) := by
  obtain ⟨hl, -⟩ := hc
  obtain ⟨hbelow, htop⟩ := h.gLoaded hl
  have hg : ∀ k, k ≤ s.gptr.toNat ∨ k = s.n.toNat →
      (s.g.write s.gptr.toNat (BitVec.ofNat 10 v)).read k = (t.g.write t.gptr.toNat (BitVec.ofNat 10 v)).read k := by
    intro k hk
    rw [← h.gptr]
    refine read_write_congr hs.storage_wf.g ht.storage_wf.g _ _ fun hne => ?_
    rcases hk with hk | rfl
    · exact hbelow k (by omega)
    · exact htop
  by_cases hlast : s.gptr.toNat + 1 = s.n.toNat
  · have hlast' : t.gptr.toNat + 1 = t.n.toNat := by rw [← h.gptr, ← h.n, hlast]
    rw [effectOf_gpush_last s hlast, effectOf_gpush_last t hlast']
    exact { h with
      gptr := rfl, gv := rfl, gld := rfl
      g := fun _ k (hk : k ≤ s.n.toNat) => hg k (by omega)
      gLoaded := nofun }
  · have hlast' : t.gptr.toNat + 1 ≠ t.n.toNat := by rwa [← h.gptr, ← h.n]
    rw [effectOf_gpush_more s hlast, effectOf_gpush_more t hlast']
    have hnext : (s.gptr + 1).toNat ≤ s.gptr.toNat + 1 := Nat.mod_le _ _
    exact { h with
      gptr := congrArg (· + 1) h.gptr
      g := fun hv => absurd hv (by simp [(hs.load_field hl).2])
      gLoaded := fun _ => ⟨fun k (hk : k < (s.gptr + 1).toNat) => hg k (.inl (by omega)), hg _ (.inr rfl)⟩ }

/-- `EINIT` writes every entry that the phase makes readable (R70). -/
theorem einit : SameVisible (effectOf .einit s) (effectOf .einit t) :=
  { h with
    phase := rfl
    acc := fun _ j (hj : j < s.n.toNat) => by
      show (s.acc.writeFrom 0 (List.replicate s.n.toNat 0)).read j =
        (t.acc.writeFrom 0 (List.replicate t.n.toNat 0)).read j
      rw [← h.n]
      exact read_writeFrom_congr hs.storage_wf.acc ht.storage_wf.acc _ fun hl =>
        absurd hj (by simpa using hl) }

/-- The shift register reads and writes only entries below `N` (R71, R72). -/
theorem edata {d : Nat} (hc : Passes (.edata d) s) :
    SameVisible (effectOf (.edata d) s) (effectOf (.edata d) t) := by
  obtain ⟨hph, -⟩ := hc
  have hidle : s.phase ≠ .idle := by simp [hph]
  have hgv := hs.phase_generator hidle
  have hfv := hs.generator_field hgv
  have hlt : ∀ c ∈ s.g.span s.n.toNat, c < s.p := by
    intro c hc
    obtain ⟨k, hk, rfl⟩ := List.mem_map.1 hc
    exact (hs.generator_ok hgv).1 k (List.mem_range.1 hk).le
  have hstep : s.lfsrStep (s.g.span s.n.toNat) (s.acc.span s.n.toNat) d =
      t.lfsrStep (t.g.span t.n.toNat) (t.acc.span t.n.toNat) d := by
    rw [← h.n, ← span_congr fun k hk => h.g hgv k hk.le, ← span_congr (h.acc hidle)]
    exact lfsrStep_congr (hs.field_ok hfv) (ht.field_ok (h.fv ▸ hfv)) h.p_eq hlt _ d
  refine { h with acc := fun _ j hj => ?_ }
  show (s.acc.writeFrom 0 _).read j = (t.acc.writeFrom 0 _).read j
  rw [← hstep]
  exact read_writeFrom_congr hs.storage_wf.acc ht.storage_wf.acc _ fun _ => h.acc hidle j hj

/-- `EFIN` reads and writes only entries below `N` (R73). -/
theorem efin (hc : Passes .efin s) : SameVisible (effectOf .efin s) (effectOf .efin t) := by
  have hidle : s.phase ≠ .idle := by rw [show s.phase = .encoding from hc]; nofun
  have hneg : (s.acc.span s.n.toNat).map s.negate = (t.acc.span t.n.toNat).map t.negate := by
    rw [← h.n, ← span_congr (h.acc hidle), negate_congr h.p_eq]
  refine { h with phase := rfl, acc := fun _ j hj => ?_ }
  show (s.acc.writeFrom 0 _).read j = (t.acc.writeFrom 0 _).read j
  rw [← hneg]
  exact read_writeFrom_congr hs.storage_wf.acc ht.storage_wf.acc _ fun _ => h.acc hidle j hj

/-- A command whose checks pass leaves the two states as like as it found them. -/
theorem effect {i : Instr} (hc : Passes i s) : SameVisible (effectOf i s) (effectOf i t) := by
  cases i with
  | rst => exact h.resetRegisters
  | bfld msel root => exact h.bfld hs ht hc
  | bgen n => exact h.bgen hs ht hc
  | gload n => exact h.gload hs ht hc
  | gpush v => exact h.gpush hs ht hc
  | einit => exact h.einit hs ht
  | edata d => exact h.edata hs ht hc
  | efin => exact h.efin hs ht hc
  | nop | rdr | gmul | rdlog | rdpow | rdg | rdchk | rdacc => exact h

end SameVisible

/-! ## Commands, edges and steps -/

/-- If the one answers a next state, so does the other, and a host cannot tell the two apart. -/
def SameResult (r r' : Result) : Prop := ∀ s', r = .next s' → ∃ t', r' = .next t' ∧ SameVisible s' t'

theorem SameResult.next (h : SameVisible s t) : SameResult (.next s) (.next t) := by
  rintro _ ⟨⟩; exact ⟨t, rfl, h⟩

/-- A fault is no next state. -/
theorem SameResult.fault (f : Fault) (r : Result) : SameResult (.fault f) r :=
  fun _ h => by cases h

theorem runOf_sameResult (hs : Invariant s) (ht : Invariant t) (h : SameVisible s t) (i : Instr) :
    SameResult (runOf i s) (runOf i t) := by
  unfold runOf
  rw [← h.checksOf_eq, ← h.entriesExist_eq]
  split
  · exact .next ((h.latch _ _).answer _ _)
  · rename_i hc
    replace hc := (checksOf_none_iff i s).1 hc
    cases hx : entriesExist i s with
    | false => exact .fault _ _
    | true =>
      rw [ifExists_inside rfl, ifExists_inside rfl, h.valueOf_eq hs ht hc]
      exact .next ((h.effect hs ht hc).answer _ _)

theorem exec_sameResult (hs : Invariant s) (ht : Invariant t) (h : SameVisible s t) (i : Instr) :
    SameResult (exec i s) (exec i t) := by
  rw [exec_eq, exec_eq, ← h.err]
  split
  · exact runOf_sameResult hs ht h i
  · exact .next (h.answer _ _)

theorem stepWord_sameResult (hs : Invariant s) (ht : Invariant t) (h : SameVisible s t) (w : Word) :
    SameResult (stepWord w s) (stepWord w t) := by
  unfold stepWord
  split
  · exact exec_sameResult hs ht h _
  · unfold execIllegal unlessHalted
    rw [← h.err]
    split
    · exact .next ((h.latch _ _).answer _ _)
    · exact .next (h.answer _ _)

theorem edge_sameResult (hs : Invariant s) (ht : Invariant t) (h : SameVisible s t) (sig : PortIn) :
    SameResult (edge sig s) (edge sig t) := by
  unfold edge State.cmdReady State.rspValid
  rw [← h.rsp]
  split
  · exact .next h.resetRegisters.delivered
  · split
    · exact stepWord_sameResult hs ht h _
    · split
      · exact .next h.delivered
      · exact .next h

theorem step_sameResult (hs : Invariant s) (ht : Invariant t) (h : SameVisible s t) :
    SameResult (step s) (step t) := by
  unfold step
  rw [← h.port]
  split
  · exact .next h
  · exact edge_sameResult (hs.port _ _) (ht.port _ _) (h.withPort _) _

/-- Settles O47: in every step each command reads guarded entries only, and what it writes into entries that are
guarded afterwards depends on those alone. -/
theorem unwrittenStorageIsNeverObserved : Obligations.UnwrittenStorageIsNeverObserved :=
  fun _ _ s' hs ht h hstep => step_sameResult hs ht h s' hstep

end Sys2Proof.Machine
end

section
/-! PROOFS. R34: the read commands. A read that succeeds has no effect but its response, and no command looks at the
response that the block holds; so the same read finds the same state again and answers the same. -/

namespace Sys2Proof.Machine

/-- A read command has no effect on the state: all it does is respond (R34). -/
theorem effectOf_of_readsOnly {i : Instr} (h : readsOnly i = true) (s : State) : effectOf i s = s := by
  cases i with
  | rdr | rdlog | rdpow | rdg | rdchk | rdacc => rfl
  | nop | rst | bfld | gmul | bgen | gload | gpush | einit | edata | efin => cases h

/-- Whether a push is the last does not depend on the response held (R62). -/
theorem advanceLoad_ignores_rsp (s : State) (r : Option Response) :
    { s with rsp := r }.advanceLoad = { s.advanceLoad with rsp := r } := by
  unfold State.advanceLoad; split <;> rfl

/-- What a command does and answers does not depend on the response held at the port: every outcome of a command
overwrites that response, and nothing else reads it (R42, R44). -/
theorem exec_ignores_rsp (i : Instr) (s : State) (r : Option Response) : exec i { s with rsp := r } = exec i s := by
  cases i with
  | gpush v =>
    have effect : effectOf (.gpush v) { s with rsp := r } = { effectOf (.gpush v) s with rsp := r } :=
      advanceLoad_ignores_rsp { s with g := s.g.write s.gptr.toNat (BitVec.ofNat 10 v) } r
    have run : runOf (.gpush v) { s with rsp := r } = runOf (.gpush v) s := by
      unfold runOf; rw [effect]; rfl
    rw [exec_eq, exec_eq, run]; rfl
  | nop | rst | rdr | bfld | gmul | rdlog | rdpow | bgen | gload | rdg | einit | edata | efin | rdchk | rdacc => rfl

/-- Only a command that took effect is answered `OK` (R42, R111, R112). -/
theorem exec_answers_ok {i : Instr} {s t : State} {v : Word} (h : exec i s = .next t) (hr : t.rsp = some ⟨.ok, v⟩) :
    t = (effectOf i s).answered v := by
  obtain ⟨-, rfl⟩ | ⟨-, e, he, rfl⟩ | ⟨-, rfl⟩ := exec_next h
  · simp at hr
  · simp [checksOf_ne_ok i s he] at hr
  · obtain rfl : valueOf i s = v := by simpa using hr
    rfl

/-- Settles O51: a read that answers `OK` only puts its response at the port, which the repeated read ignores. -/
theorem readsChangeNothing : Obligations.ReadsChangeNothing := by
  intro i s t v hi h hr
  have ht : t = s.answered v := effectOf_of_readsOnly hi s ▸ exec_answers_ok h hr
  refine ⟨ht, ?_⟩
  calc exec i t = exec i (s.answered v) := by rw [ht]
    _ = exec i s := exec_ignores_rsp i s _
    _ = .next t := h

end Sys2Proof.Machine
end

section
/-! PROOFS. The decoder follows the opcode table (R43). A mask covers the whole opcode and exactly the operand fields
that its row's command does not use, and a pattern is 0 in the operand fields; so a word matches a row exactly when it
has the row's opcode and is 0 in the unused fields, and the two ways not to match are the two reasons of R46. -/

namespace Sys2Proof

/-! ## Matching field by field -/

/-- Two words are the same when their fields are (R40). -/
theorem word_eq_iff_fields (w v : Word) :
    w = v ↔ opField w = opField v ∧ fieldA w = fieldA v ∧ fieldB w = fieldB v := by
  rw [← word_eq_iff, commandWord_fields]

@[simp] theorem opField_and (w m : Word) : opField (w &&& m) = opField w &&& opField m := BitVec.extractLsb'_and

@[simp] theorem fieldA_and (w m : Word) : fieldA (w &&& m) = fieldA w &&& fieldA m := BitVec.extractLsb'_and

@[simp] theorem fieldB_and (w m : Word) : fieldB (w &&& m) = fieldB w &&& fieldB m := BitVec.extractLsb'_and

/-- The operand fields are 0 wherever the mask of the row covers them. -/
abbrev OpcodeRow.UnusedZero (row : OpcodeRow) (a b : BitVec 12) : Prop :=
  a &&& fieldA row.mask = 0 ∧ b &&& fieldB row.mask = 0

/-- The masks and patterns of R43: the whole opcode is compared, and the operand fields are compared with 0. -/
theorem opcodeTable_shape : ∀ row ∈ opcodeTable,
    opField row.mask = BitVec.allOnes 8 ∧ fieldA row.pattern = 0 ∧ fieldB row.pattern = 0 := by
  decide

theorem matches_row_iff {row : OpcodeRow} (hrow : row ∈ opcodeTable) (w : Word) :
    w &&& row.mask = row.pattern ↔
      opField w = opField row.pattern ∧ row.UnusedZero (fieldA w) (fieldB w) := by
  obtain ⟨hop, ha, hb⟩ := opcodeTable_shape row hrow
  rw [word_eq_iff_fields, opField_and, fieldA_and, fieldB_and, hop, ha, hb, BitVec.and_allOnes]

/-! ## The decoder row by row -/

/-! The operand checks of the decoder, as the masks say them: `allOnes` on an unused field, 0 on an operand. -/

theorem noOperand_masked (a b : BitVec 12) (i : Instr) :
    noOperand a b i =
      if a &&& BitVec.allOnes 12 = 0 ∧ b &&& BitVec.allOnes 12 = 0 then .ok i else .error .nonzeroUnusedField := by
  simp only [noOperand, BitVec.and_allOnes]

theorem oneOperand_masked (a b : BitVec 12) (i : Nat → Instr) :
    oneOperand a b i =
      if a &&& 0#12 = 0 ∧ b &&& BitVec.allOnes 12 = 0 then .ok (i a.toNat) else .error .nonzeroUnusedField := by
  simp only [oneOperand, BitVec.and_allOnes, BitVec.and_zero, BitVec.ofNat_eq_ofNat, true_and]

theorem twoOperands_masked (a b : BitVec 12) (i : Nat → Nat → Instr) :
    twoOperands a b i =
      if a &&& 0#12 = 0 ∧ b &&& 0#12 = 0 then .ok (i a.toNat b.toNat)
      else .error .nonzeroUnusedField := by
  simp only [twoOperands, BitVec.and_zero, BitVec.ofNat_eq_ofNat, true_and, if_true]

/-- With the opcode of a row, a word is that row's command, unless a field that the command does not use is not 0. -/
theorem decodeFields_row (a b : BitVec 12) : ∀ row ∈ opcodeTable,
    decodeFields (opField row.pattern) a b =
      if row.UnusedZero a b then .ok (row.command a.toNat b.toNat) else .error .nonzeroUnusedField := by
  simp only [opcodeTable, List.forall_mem_cons, List.not_mem_nil, false_implies, implies_true, and_true]
  exact ⟨noOperand_masked a b .nop, noOperand_masked a b .rst, oneOperand_masked a b .rdr,
    twoOperands_masked a b .bfld, twoOperands_masked a b .gmul, oneOperand_masked a b .rdlog,
    oneOperand_masked a b .rdpow, oneOperand_masked a b .bgen, oneOperand_masked a b .gload,
    oneOperand_masked a b .gpush, oneOperand_masked a b .rdg, noOperand_masked a b .einit,
    oneOperand_masked a b .edata, noOperand_masked a b .efin, oneOperand_masked a b .rdchk,
    oneOperand_masked a b .rdacc⟩

/-- An opcode of no row is unassigned, whatever the operand fields hold. -/
theorem decodeFields_unassigned {op : BitVec 8} (h : ∀ row ∈ opcodeTable, op ≠ opField row.pattern)
    (a b : BitVec 12) : decodeFields op a b = .error .unassignedOpcode := by
  unfold decodeFields
  split
  case h_17 => rfl -- the arm for every opcode that R43 does not list
  all_goals exact absurd h (by decide)

/-- Settles O2: the opcode of a word is that of a row or of none; with a row's opcode the word matches the row exactly
when the decoder finds the unused fields 0. -/
theorem decodeFollowsOpcodeTable : Obligations.DecodeFollowsOpcodeTable := by
  intro w
  constructor
  · intro row hrow hmatch
    obtain ⟨hop, hzero⟩ := (matches_row_iff hrow w).1 hmatch
    rw [decode, hop, decodeFields_row _ _ row hrow, if_pos hzero]
  · intro hnone
    by_cases hassigned : ∃ row ∈ opcodeTable, opField w = opField row.pattern
    · obtain ⟨row, hrow, hop⟩ := hassigned
      have hnonzero : ¬ row.UnusedZero (fieldA w) (fieldB w) := fun hzero =>
        hnone row hrow ((matches_row_iff hrow w).2 ⟨hop, hzero⟩)
      exact ⟨.nonzeroUnusedField, by rw [decode, hop, decodeFields_row _ _ row hrow, if_neg hnonzero]⟩
    · exact ⟨.unassignedOpcode, decodeFields_unassigned (fun row hrow hop => hassigned ⟨row, hrow, hop⟩) _ _⟩

end Sys2Proof
end

section
/-! PROOFS. What primitive means (R56): the powers of the root run through the nonzero field values, each once. -/

namespace Sys2Proof.Machine

variable {q r : Nat}

/-- R56's equivalence: a primitive root meets every nonzero value once, and a root that meets 1 only at the exponent 0
is primitive. -/
theorem isPrimitive_iff_runs_through (hq : q.Prime) (h1 : 1 ≤ r) (h2 : r < q) :
    isPrimitive q r = true ↔ ∀ x, 1 ≤ x → x < q → ∃ j, j ≤ q - 2 ∧ r ^ j % q = x ∧
      ∀ j', j' ≤ q - 2 → r ^ j' % q = x → j' = j := by
  constructor
  · intro hp x hx1 hx2
    obtain ⟨j, hj, rfl⟩ := List.getElem_of_mem ((mem_powers_iff hq h1 h2 hp x).2 ⟨hx1, hx2⟩)
    rw [getElem_powers q r hq.one_lt]
    rw [length_powers] at hj
    exact ⟨j, by omega, rfl, fun j' hj' h => primitive_pow_inj hq h1 h2 hp hj' (by omega) h⟩
  · intro hruns
    obtain ⟨j, -, -, only⟩ := hruns 1 le_rfl hq.one_lt
    have zero_eq : 0 = j := only 0 (Nat.zero_le _) (by rw [pow_zero, Nat.mod_eq_of_lt hq.one_lt])
    refine (isPrimitive_iff q r).2 fun i hi hi' hpow => ?_
    have := only i hi' hpow
    omega

/-- Settles O23: R56's equivalence for the two moduli, which are prime; that 3 is primitive is found as R56 finds it,
by computing the powers of 3. -/
theorem primitiveRootsRunThroughTheField : Obligations.PrimitiveRootsRunThroughTheField :=
  ⟨fun msel _ h1 h2 => isPrimitive_iff_runs_through (modulus_prime msel) h1 h2,
    by decide +kernel, by decide +kernel⟩

end Sys2Proof.Machine
end

section
/-! PROOFS. `GMUL` (R55, R57): a command whose checks pass, that reaches no storage entry which might not exist and
has no effect on the state, only responds its value; and the value of `GMUL` is the field product. -/

namespace Sys2Proof.Machine

/-- A command that passes its checks in a block that is not halted, and finds its entries, takes effect and responds
(R110). -/
theorem exec_passes {i : Instr} {s : State} (hok : s.err = .ok) (hp : Passes i s) (hx : entriesExist i s = true) :
    exec i s = .next ((effectOf i s).answered (valueOf i s)) := by
  rw [exec_eq, if_pos (.inr hok), runOf, (checksOf_none_iff i s).2 hp]
  exact ifExists_inside hx _

/-- Settles O26: the tables give the product (`gfMul_eq`), and `GMUL`, whose checks pass, responds it. -/
theorem gmulIsTheFieldProduct : Obligations.GmulIsTheFieldProduct := by
  intro s a b hs hok hfv ha hb
  have product : s.gfMul a b = a * b % s.p := gfMul_eq (hs.field_ok hfv) ha hb
  refine ⟨product, ?_⟩
  calc exec (.gmul a b) s = .next (s.answered (word32 (s.gfMul a b))) := exec_passes hok ⟨hfv, ha, hb⟩ rfl
    _ = .next (s.answered (word32 (a * b % s.p))) := by rw [product]

end Sys2Proof.Machine
end

section
/-! PROOFS. Polynomials over the field by their lists of coefficients, index = power of `x`. -/

namespace Sys2Proof.Machine

open Polynomial

/-- The polynomial modulo `p` with the coefficients of a list, the lowest power first. -/
noncomputable def listPoly (p : Nat) (l : List Nat) : (ZMod p)[X] := coeffPoly p l.length fun k => l.getD k 0

variable {p : Nat}

theorem coeff_coeffPoly (n : Nat) (c : Nat → Nat) (k : Nat) :
    (coeffPoly p n c).coeff k = if k < n then (c k : ZMod p) else 0 := by
  simp [coeffPoly, coeff_X_pow]

/-- A coefficient beyond the end of the list is 0, as `getD` reads it. -/
@[simp] theorem coeff_listPoly (l : List Nat) (k : Nat) : (listPoly p l).coeff k = (l.getD k 0 : Nat) := by
  rw [listPoly, coeff_coeffPoly]
  split
  · rfl
  · rw [List.getD_eq_default _ _ (by omega), Nat.cast_zero]

/-- The polynomial of the entries `[0, n)` of a storage space. -/
theorem coeffPoly_read (m : Storage) (n : Nat) :
    coeffPoly p n (fun k => (m.read k).toNat) = listPoly p (m.span n) := by
  ext k
  rw [coeff_coeffPoly, coeff_listPoly]
  split
  · rw [Storage.getD_span _ _ _ ‹_›]
  · rw [List.getD_eq_default _ _ (by simpa using ‹¬ k < n›), Nat.cast_zero]

theorem listPoly_nil : listPoly p [] = 0 := by ext k; simp

theorem listPoly_cons (a : Nat) (l : List Nat) : listPoly p (a :: l) = X * listPoly p l + C (a : ZMod p) := by
  ext k
  cases k with
  | zero => simp
  | succ k => simp [coeff_X_mul]

theorem listPoly_concat (l : List Nat) (a : Nat) :
    listPoly p (l ++ [a]) = listPoly p l + C (a : ZMod p) * X ^ l.length := by
  induction l with
  | nil => simp [listPoly_cons, listPoly_nil]
  | cons b l ih =>
    rw [List.cons_append, listPoly_cons, ih, listPoly_cons, List.length_cons]
    ring

theorem dataPoly_eq (data : List Nat) : dataPoly p data = listPoly p data.reverse := by
  rw [dataPoly, listPoly, List.length_reverse]

/-- One more data codeword moves those before it up by one power (R76). -/
theorem dataPoly_concat (data : List Nat) (d : Nat) :
    dataPoly p (data ++ [d]) = X * dataPoly p data + C (d : ZMod p) := by
  rw [dataPoly_eq, dataPoly_eq, List.reverse_concat, listPoly_cons]

/-! ## Field values modulo `p` -/

variable {s : State}

/-- `gf_mul` is the product in the integers modulo `p` (R57). -/
theorem cast_gfMul (hf : FieldOk s) {a b : Nat} (ha : a < s.p) (hb : b < s.p) :
    (s.gfMul a b : ZMod s.p) = a * b := by
  rw [gfMul_eq hf ha hb, ZMod.natCast_mod, Nat.cast_mul]

/-- The guarded subtraction of the block is the subtraction modulo `p`. -/
theorem cast_sub_mod {a b : Nat} (hb : b ≤ p) : ((a + p - b) % p : Nat) = (a - b : ZMod p) := by
  rw [ZMod.natCast_mod, Nat.cast_sub (by omega), Nat.cast_add, ZMod.natCast_self, add_zero]

/-! ## Reading back what was written -/

theorem span_writeFrom {m : Storage} (hm : m.sorted) (l : List Nat) (hl : ∀ x ∈ l, x < 1024) :
    (m.writeFrom 0 l).span l.length = l := by
  refine List.ext_getElem (Storage.length_span ..) fun k _ hk => ?_
  rw [Storage.getElem_span, Storage.read_writeFrom m hm, if_pos ⟨Nat.zero_le k, by omega⟩, Nat.sub_zero,
    List.getD_eq_getElem _ _ hk, toNat_entry (hl _ (List.getElem_mem hk))]

end Sys2Proof.Machine
end

section
/-! PROOFS. `BGEN` (R60, R64, R65). -/

namespace Sys2Proof.Machine

open Polynomial

variable {s : State}

/-! ## Step A multiplies the `x + ROOT^i`, Step B turns the signs of the roots -/

/-- One pass of Step A is the multiplication by `x + r` (R65). -/
theorem listPoly_mulRoot (hf : FieldOk s) {h : List Nat} (hne : h ≠ []) (hh : ∀ k, h.getD k 0 < s.p) {r : Nat}
    (hr : r < s.p) : listPoly s.p (s.mulRoot h r) = (X + C (r : ZMod s.p)) * listPoly s.p h := by
  ext k
  rw [add_mul, coeff_add, coeff_C_mul, coeff_listPoly, coeff_listPoly]
  cases k with
  | zero => rw [getD_mulRoot_zero, cast_gfMul hf (hh 0) hr, coeff_X_mul_zero, zero_add, mul_comm]
  | succ k =>
    rw [coeff_X_mul, coeff_listPoly]
    rcases Nat.lt_or_ge k h.length with hk | hk
    · rw [getD_mulRoot_succ h r k hk, ZMod.natCast_mod, Nat.cast_add, cast_gfMul hf (hh (k + 1)) hr, mul_comm]
    · rw [List.getD_eq_default _ _ (by rw [length_mulRoot h r hne]; omega), List.getD_eq_default _ _ hk,
        List.getD_eq_default _ _ (by omega)]
      simp

/-- Step A gives the product of the `x + ROOT^i` (R65). -/
theorem listPoly_stepA (hf : FieldOk s) {n : Nat} (hn : n ≤ 128) :
    listPoly s.p (s.stepA n) = ∏ i ∈ Finset.range n, (X + C ((s.root.toNat : ZMod s.p) ^ i)) := by
  have hp := s.p_ge
  induction n with
  | zero => simp [stepA_zero, listPoly_cons, listPoly_nil]
  | succ n ih =>
    have hr := root_of_pass hf (i := n) (by omega)
    rw [stepA_succ, hr, listPoly_mulRoot hf (stepA_ne_nil n) (stepA_spec hf n (by omega)).1
      (Nat.mod_lt _ s.p_prime.pos), ih (by omega), Finset.prod_range_succ_comm, ZMod.natCast_mod, Nat.cast_pow]

/-- Step B gives the coefficient of `x^k` the sign `(-1)^(n-k)` (R65). -/
theorem cast_getD_generator (hf : FieldOk s) {n k : Nat} (hn : n ≤ 128) (hk : k ≤ n) :
    ((s.generator n).getD k 0 : ZMod s.p) = (-1) ^ (n - k) * ((s.stepA n).getD k 0 : Nat) := by
  rw [getD_generator n k hk]
  split
  · have hodd : Odd (n - k) := Nat.odd_iff.2 ‹_›
    have hlt := (stepA_spec hf n hn).1 k
    rw [hodd.neg_one_pow, ZMod.natCast_mod, Nat.cast_sub hlt.le, ZMod.natCast_self, zero_sub, neg_one_mul]
  · have heven : Even (n - k) := Nat.even_iff.2 (by omega)
    rw [heven.neg_one_pow, one_mul]

/-- Step B puts `-x` for `x` and makes the result monic again (R65). -/
theorem listPoly_generator (hf : FieldOk s) {n : Nat} (hn : n ≤ 128) :
    listPoly s.p (s.generator n) = C ((-1) ^ n) * (listPoly s.p (s.stepA n)).comp (C (-1) * X) := by
  ext k
  rw [coeff_C_mul, comp_C_mul_X_coeff, coeff_listPoly, coeff_listPoly]
  rcases Nat.lt_or_ge n k with hk | hk
  · rw [List.getD_eq_default _ _ (by simpa using hk), List.getD_eq_default _ _ (by simpa using hk)]
    simp
  · have hsign : (-1 : ZMod s.p) ^ (n - k) = (-1) ^ n * (-1) ^ k := by
      rw [← pow_add]
      exact neg_one_pow_congr (by rw [Nat.even_sub hk, Nat.even_add])
    rw [cast_getD_generator hf hn hk, hsign]
    ring

/-- The generator built is the product of the `x - ROOT^i` (R64, R65). -/
theorem listPoly_generator_eq_genpoly (hf : FieldOk s) {n : Nat} (hn : n ≤ 128) :
    listPoly s.p (s.generator n) = genpoly s.p s.root.toNat n := by
  have hfactor : ∀ a : ZMod s.p, C (-1) * (X + C a).comp (C (-1) * X) = X - C a := fun a => by
    simp only [add_comp, X_comp, C_comp, map_neg, map_one]; ring
  have hconst : (C ((-1) ^ n) : (ZMod s.p)[X]) = ∏ _i ∈ Finset.range n, C (-1) := by
    rw [Finset.prod_const, Finset.card_range, C_pow]
  rw [listPoly_generator hf hn, listPoly_stepA hf hn, prod_comp, hconst, ← Finset.prod_mul_distrib, genpoly]
  exact Finset.prod_congr rfl fun i _ => by rw [hfactor, Config.genFirstExp, Nat.zero_add]

/-- `BGEN` with its prerequisites takes effect and responds (R60). -/
theorem exec_bgen {n : Nat} (hok : s.err = .ok) (hfv : s.fv = true) (h1 : 1 ≤ n) (hn : n ≤ 128) :
    exec (.bgen n) s = .next ((effectOf (.bgen n) s).answered 0) :=
  exec_passes hok ⟨hfv, h1, hn⟩ rfl

theorem generator_lt (hf : FieldOk s) {n : Nat} (hn : n ≤ 128) : ∀ c ∈ s.generator n, c < s.p := by
  intro c hc
  obtain ⟨k, hk, rfl⟩ := List.getElem_of_mem hc
  rw [← List.getD_eq_getElem _ 0 hk]
  exact (generator_spec hf n hn).1 k (by rw [length_generator] at hk; omega)

/-- After `BGEN n` the entries `G[0 .. n]` are the coefficients built (R60). -/
theorem span_bgen (hs : Invariant s) (hfv : s.fv = true) {n : Nat} (hn : n ≤ 128) :
    (s.g.writeFrom 0 (s.generator n)).span (n + 1) = s.generator n := by
  have hf := hs.field_ok hfv
  have hp := s.p_le
  have h := span_writeFrom hs.storage_wf.g (s.generator n) fun c hc => (generator_lt hf hn c hc).trans (by omega)
  rwa [length_generator] at h

/-- Each coefficient that `BGEN n` leaves is the one built. -/
theorem toNat_read_bgen (hs : Invariant s) (hfv : s.fv = true) {n : Nat} (hn : n ≤ 128) {k : Nat} (hk : k ≤ n) :
    ((s.g.writeFrom 0 (s.generator n)).read k).toNat = (s.generator n).getD k 0 := by
  rw [← Storage.getD_span _ _ _ (Nat.lt_succ_of_le hk), span_bgen hs hfv hn]

/-- Settles O29: `G[0 .. n]` are the coefficients built, and their polynomial is the product of R64. -/
theorem bgenBuildsTheProductOfTheRoots : Obligations.BgenBuildsTheProductOfTheRoots := by
  intro s n hs hok hfv h1 hn
  have hf := hs.field_ok hfv
  obtain ⟨hlt, hmonic⟩ := generator_spec hf n hn
  refine ⟨s.g.writeFrom 0 (s.generator n), exec_bgen hok hfv h1 hn, fun k hk => ?_, ?_, fun k hk => ?_, ?_⟩
  · rw [toNat_read_bgen hs hfv hn hk]; exact hlt k hk
  · exact BitVec.eq_of_toNat_eq ((toNat_read_bgen hs hfv hn le_rfl).trans hmonic)
  · rw [Storage.read_writeFrom _ hs.storage_wf.g, if_neg (by rw [length_generator]; omega)]
  · rw [coeffPoly_read, span_bgen hs hfv hn, listPoly_generator_eq_genpoly hf hn]

/-! ## The construction without the tables -/

/-- One pass of Step A in arithmetic modulo `p` (R65). -/
def passMod (p : Nat) (h : List Nat) (r : Nat) : List Nat :=
  h.getD 0 0 * r % p :: List.zipWith (fun low high => (low + high * r) % p) h (h.tail ++ [0])

/-- Steps A and B in arithmetic modulo `p`, with the powers of the root computed (R65). -/
def generatorMod (p root n : Nat) : List Nat :=
  ((List.range n).foldl (fun h i => passMod p h (root ^ i % p)) [1]).mapIdx fun k c =>
    if (n - k) % 2 = 1 then (p - c) % p else c

theorem mulRoot_eq_passMod (hf : FieldOk s) {h : List Nat} (hh : ∀ k, h.getD k 0 < s.p) {r : Nat}
    (hr : r < s.p) : s.mulRoot h r = passMod s.p h r := by
  have hmem : ∀ c ∈ h.tail ++ [0], s.gfMul c r = c * r % s.p := by
    intro c hc
    refine gfMul_eq hf ?_ hr
    obtain hc | rfl : c ∈ h.tail ∨ c = 0 := by simpa using hc
    · obtain ⟨k, hk, rfl⟩ := List.getElem_of_mem (List.mem_of_mem_tail hc)
      exact List.getD_eq_getElem h 0 hk ▸ hh k
    · exact s.p_prime.pos
  rw [State.mulRoot, passMod, gfMul_eq hf (hh 0) hr]
  refine congrArg _ (List.ext_getElem (by simp) fun k hk _ => ?_)
  rw [List.getElem_zipWith, List.getElem_zipWith, hmem _ (List.getElem_mem _), Nat.add_mod_mod]

theorem generator_eq_generatorMod (hf : FieldOk s) {n : Nat} (hn : n ≤ 128) :
    s.generator n = generatorMod s.p s.root.toNat n := by
  have hstep : ∀ m, m ≤ n → s.stepA m =
      (List.range m).foldl (fun h i => passMod s.p h (s.root.toNat ^ i % s.p)) [1] := by
    have hp := s.p_ge
    intro m hm
    induction m with
    | zero => rfl
    | succ m ih =>
      rw [stepA_succ, root_of_pass hf (by omega), mulRoot_eq_passMod hf (stepA_spec hf m (by omega)).1
        (Nat.mod_lt _ s.p_prime.pos), ih (by omega), List.range_succ, List.foldl_append]
      rfl
  rw [State.generator, State.stepB, hstep n le_rfl, generatorMod]

/-- The table of R64 in the field of 283, for root 3. -/
theorem generatorMod_283 {n : Nat} (h1 : 1 ≤ n) (hn : n ≤ 4) : generatorMod 283 3 n =
    if n = 1 then [282, 1] else if n = 2 then [3, 279, 1] else if n = 3 then [256, 39, 270, 1]
    else [163, 52, 107, 243, 1] := by
  interval_cases n <;> decide

/-- The table of R64 in the field of 929, for root 3. -/
theorem generatorMod_929 {n : Nat} (h1 : 1 ≤ n) (hn : n ≤ 4) : generatorMod 929 3 n =
    if n = 1 then [928, 1] else if n = 2 then [3, 925, 1] else if n = 3 then [902, 39, 916, 1]
    else [729, 778, 390, 889, 1] := by
  interval_cases n <;> decide

/-- Settles O30: what `BGEN` leaves is the construction in plain arithmetic, which gives the table of R64. -/
theorem bgenFirstCases : Obligations.BgenFirstCases := by
  intro s n hs hok hfv hroot h1 hn
  have hspan : (s.g.writeFrom 0 (s.generator n)).span (n + 1) = generatorMod s.p s.root.toNat n :=
    (span_bgen hs hfv (by omega)).trans (generator_eq_generatorMod (hs.field_ok hfv) (by omega))
  rw [hroot, State.p] at hspan
  refine ⟨_, exec_bgen hok hfv h1 (by omega), fun hm => ?_, fun hm => ?_⟩ <;> rw [hm] at hspan
  · exact hspan.trans (generatorMod_283 h1 hn)
  · exact hspan.trans (generatorMod_929 h1 hn)

end Sys2Proof.Machine
end

section
/-! PROOFS. An encode of any length (R70 to R73, R76): which state the sequence of commands leaves, and that the data
and the check codewords together are a multiple of the generator. -/

namespace Sys2Proof.Machine

open Polynomial

variable {s : State}

/-! ## The commands of an encode -/

theorem execAll_cons {i : Instr} {is : List Instr} {t : State} (h : exec i s = .next t) :
    execAll (i :: is) s = execAll is t := by
  rw [execAll, h]

theorem execAll_append {is js : List Instr} {t : State} (h : execAll is s = .next t) :
    execAll (is ++ js) s = execAll js t := by
  induction is generalizing s with
  | nil => cases h; rfl
  | cons i is ih =>
    rw [execAll] at h
    rw [List.cons_append, execAll]
    split at h
    · exact ih h
    · cases h
    · cases h

/-- The state of an encode in progress that holds the accumulator `acc`, between two commands (R70, R72). -/
def State.encoding (s : State) (acc : Storage) : State :=
  { s with acc := acc, phase := .encoding, rsp := some ⟨.ok, 0⟩ }

/-- The remainder that the data leave in the accumulator (R72, R77). -/
def State.remainder (s : State) (data : List Nat) : List Nat :=
  data.foldl (s.lfsrStep (s.g.span s.n.toNat)) (List.replicate s.n.toNat 0)

/-- R77: the check codewords are the remainder, negated. -/
theorem encodeRs_eq (data : List Nat) : s.encodeRs data = (s.remainder data).map s.negate := rfl

@[simp] theorem remainder_nil : s.remainder [] = List.replicate s.n.toNat 0 := rfl

theorem remainder_concat (data : List Nat) (d : Nat) :
    s.remainder (data ++ [d]) = s.lfsrStep (s.g.span s.n.toNat) (s.remainder data) d := List.foldl_concat ..

theorem length_remainder (hn : 1 ≤ s.n.toNat) (data : List Nat) : (s.remainder data).length = s.n.toNat := by
  induction data using List.reverseRecOn with
  | nil => simp
  | append_singleton data d ih =>
    have hne : s.remainder data ≠ [] := List.ne_nil_of_length_pos (by omega)
    rw [remainder_concat, length_lfsrStep _ _ _ (by rw [Storage.length_span, ih]) hne, ih]

/-- Every entry of the remainder is a field value (R71). -/
theorem remainder_lt (data : List Nat) : ∀ c ∈ s.remainder data, c < s.p := by
  intro c hc
  rcases List.eq_nil_or_concat' data with rfl | ⟨data, d, rfl⟩
  · obtain ⟨-, rfl⟩ : _ ∧ c = 0 := by simpa using hc
    exact s.p_prime.pos
  · rw [remainder_concat] at hc
    exact lfsrStep_lt _ _ _ _ hc

/-- The accumulator `acc` holds the list `l` in `ACC[0 .. N-1]` and is otherwise that of `s`. -/
structure HoldsInAcc (s : State) (acc : Storage) (l : List Nat) : Prop where
  sorted : acc.sorted
  span : acc.span s.n.toNat = l
  other : ∀ j, s.n.toNat ≤ j → acc.read j = s.acc.read j

/-- Writing `N` field values from entry 0 up replaces what the accumulator holds (R70, R72, R73). -/
theorem HoldsInAcc.writeFrom {acc : Storage} (hsorted : acc.sorted)
    (hother : ∀ j, s.n.toNat ≤ j → acc.read j = s.acc.read j) {l : List Nat} (hlen : l.length = s.n.toNat)
    (hl : ∀ c ∈ l, c < s.p) : HoldsInAcc s (acc.writeFrom 0 l) l where
  sorted := Storage.sorted_writeFrom acc hsorted 0 l
  span := by
    have hp := s.p_le
    rw [← hlen]
    exact span_writeFrom hsorted l fun c hc => (hl c hc).trans (by omega)
  other j hj := by rw [Storage.read_writeFrom acc hsorted, if_neg (by omega), hother j hj]

section Commands

variable (hs : Invariant s) (hok : s.err = .ok) (hgv : s.gv = true)

include hs hok hgv

/-- `EINIT` under the invariants (R70). -/
theorem exec_einit : ∃ acc, exec .einit s = .next (s.encoding acc) ∧ HoldsInAcc s acc (s.remainder []) := by
  have hn := (hs.length_range (.inl hgv)).2
  exact ⟨_, exec_passes hok hgv (decide_eq_true hn),
    .writeFrom hs.storage_wf.acc (fun _ _ => rfl) List.length_replicate (remainder_lt [])⟩

/-- One data codeword: the remainder of the data with it (R72). -/
theorem exec_edata {data : List Nat} {d : Nat} (hd : d < s.p) {acc : Storage}
    (h : HoldsInAcc s acc (s.remainder data)) :
    ∃ acc', exec (.edata d) (s.encoding acc) = .next (s.encoding acc') ∧
      HoldsInAcc s acc' (s.remainder (data ++ [d])) := by
  obtain ⟨h1, hn⟩ := hs.length_range (.inl hgv)
  have hexists : entriesExist (.edata d) (s.encoding acc) = true :=
    Bool.and_eq_true_iff.2 ⟨decide_eq_true h1, decide_eq_true hn⟩
  refine ⟨acc.writeFrom 0 (s.remainder (data ++ [d])), ?_,
    .writeFrom h.sorted h.other (length_remainder h1 _) (remainder_lt _)⟩
  have hrun := exec_passes (i := .edata d) (s := s.encoding acc) hok ⟨rfl, hd⟩ hexists
  rw [remainder_concat, ← h.span]
  exact hrun

/-- All data codewords, one after the other (R72, R76). -/
theorem execAll_einit_edata {data : List Nat} (hd : ∀ d ∈ data, d < s.p) :
    ∃ acc, execAll (.einit :: data.map .edata) s = .next (s.encoding acc) ∧
      HoldsInAcc s acc (s.remainder data) := by
  induction data using List.reverseRecOn with
  | nil =>
    obtain ⟨acc, hrun, hacc⟩ := exec_einit hs hok hgv
    exact ⟨acc, execAll_cons hrun, hacc⟩
  | append_singleton data d ih =>
    obtain ⟨acc, hrun, hacc⟩ := ih fun c hc => hd c (List.mem_append_left _ hc)
    obtain ⟨acc', hrun', hacc'⟩ := exec_edata hs hok hgv (hd d (by simp)) hacc
    refine ⟨acc', ?_, hacc'⟩
    rw [List.map_append, ← List.cons_append, execAll_append hrun]
    exact execAll_cons hrun'

/-- `EFIN` leaves the check codewords (R73, R77). -/
theorem exec_efin {data : List Nat} {acc : Storage} (h : HoldsInAcc s acc (s.remainder data)) :
    ∃ acc', exec .efin (s.encoding acc) = .next { s with acc := acc', phase := .done, rsp := some ⟨.ok, 0⟩ } ∧
      HoldsInAcc s acc' (s.encodeRs data) := by
  obtain ⟨h1, hn⟩ := hs.length_range (.inl hgv)
  refine ⟨acc.writeFrom 0 (s.encodeRs data), ?_,
    .writeFrom h.sorted h.other (by rw [encodeRs_eq, List.length_map, length_remainder h1]) fun c hc => ?_⟩
  · have hrun := exec_passes (i := .efin) (s := s.encoding acc) hok rfl (decide_eq_true hn)
    rw [encodeRs_eq, ← h.span]
    exact hrun
  · obtain ⟨a, ha, rfl⟩ := List.mem_map.1 (encodeRs_eq data ▸ hc)
    exact negate_lt (remainder_lt data a ha)

/-- `ENCODE` leaves the check codewords of its data, in phase `DONE` (R49, R77). -/
theorem execAll_encode {data : List Nat} (hd : ∀ d ∈ data, d < s.p) :
    ∃ acc, execAll (Pseudo.encode data).expand s =
        .next { s with acc := acc, phase := .done, rsp := some ⟨.ok, 0⟩ } ∧
      HoldsInAcc s acc (s.encodeRs data) := by
  obtain ⟨acc, hrun, hacc⟩ := execAll_einit_edata hs hok hgv hd
  obtain ⟨acc', hrun', hacc'⟩ := exec_efin hs hok hgv hacc
  refine ⟨acc', ?_, hacc'⟩
  rw [Pseudo.expand, ← List.cons_append, execAll_append hrun]
  exact execAll_cons hrun'

end Commands

/-! ## The remainder as a polynomial (R76) -/

/-- Subtracting a multiple of `g` entry by entry, as a step of the shift register does (R71). -/
theorem listPoly_sub_mul (hf : FieldOk s) {t : Nat} (ht : t < s.p) {l g : List Nat} (hlen : l.length = g.length)
    (hg : ∀ c ∈ g, c < s.p) :
    listPoly s.p (List.zipWith (fun prev c => (prev + s.p - s.gfMul t c) % s.p) l g) =
      listPoly s.p l - C (t : ZMod s.p) * listPoly s.p g := by
  induction l generalizing g with
  | nil =>
    obtain rfl := List.length_eq_zero_iff.1 hlen.symm
    simp [listPoly_nil]
  | cons prev l ih =>
    obtain ⟨c, g, rfl⟩ := List.exists_cons_of_length_pos (l := g) (by rw [← hlen]; simp)
    have hc := hg c (List.mem_cons_self ..)
    rw [List.zipWith_cons_cons, listPoly_cons, listPoly_cons, listPoly_cons,
      ih (by simpa using hlen) fun c hc => hg c (List.mem_cons_of_mem _ hc),
      cast_sub_mod (gfMul_lt hf ht hc).le, cast_gfMul hf ht hc, C_sub, C_mul]
    ring

/-- One step of the shift register: the accumulator and `d` move up by one power, and a multiple of the monic
`x^n + g` takes the term in `x^n` away (R71, R76). -/
theorem listPoly_lfsrStep (hf : FieldOk s) {g acc : List Nat} (hlen : g.length = acc.length) (hne : acc ≠ [])
    (hg : ∀ c ∈ g, c < s.p) (d : Nat) :
    ∃ t : (ZMod s.p)[X], listPoly s.p (s.lfsrStep g acc d) =
      X * listPoly s.p acc + C (d : ZMod s.p) * X ^ g.length - t * (listPoly s.p g + X ^ g.length) := by
  obtain ⟨init, last, rfl⟩ := List.eq_nil_or_concat' acc |>.resolve_left hne
  have hlen' : (0 :: init).length = g.length := by simpa using hlen.symm
  refine ⟨C ((d + last : Nat) : ZMod s.p), ?_⟩
  rw [State.lfsrStep, List.dropLast_concat, List.getLastD_concat,
    listPoly_sub_mul hf (Nat.mod_lt _ s.p_prime.pos) hlen' hg, ZMod.natCast_mod, listPoly_cons, listPoly_concat,
    ← hlen', List.length_cons, Nat.cast_add, C_add, Nat.cast_zero, C_0]
  ring

/-- The generator held is monic (R76). -/
theorem generatorPoly_eq (hs : Invariant s) (hgv : s.gv = true) :
    s.generatorPoly = listPoly s.p (s.g.span s.n.toNat) + X ^ s.n.toNat := by
  have hspan : s.g.span (s.n.toNat + 1) = s.g.span s.n.toNat ++ [1] := by
    simp [Storage.span, List.range_succ, (hs.generator_ok hgv).2]
  rw [State.generatorPoly, coeffPoly_read, hspan, listPoly_concat, Storage.length_span, Nat.cast_one, C_1, one_mul]

/-- The remainder differs from `D(x) x^n` by a multiple of the generator (R76). -/
theorem generatorPoly_dvd_sub_remainder (hs : Invariant s) (hgv : s.gv = true) (data : List Nat) :
    s.generatorPoly ∣ dataPoly s.p data * X ^ s.n.toNat - listPoly s.p (s.remainder data) := by
  have hn := (hs.length_range (.inl hgv)).1
  have hf := hs.field_ok (hs.generator_field hgv)
  have hg : ∀ c ∈ s.g.span s.n.toNat, c < s.p := by
    intro c hc
    obtain ⟨k, hk, rfl⟩ := List.mem_map.1 hc
    exact (hs.generator_ok hgv).1 k (List.mem_range.1 hk).le
  induction data using List.reverseRecOn with
  | nil =>
    have h0 : listPoly s.p (List.replicate s.n.toNat 0) = 0 := by
      ext k; simp
    rw [remainder_nil, h0, dataPoly_eq, List.reverse_nil, listPoly_nil, zero_mul, sub_zero]
    exact dvd_zero _
  | append_singleton data d ih =>
    have hlen := length_remainder hn data
    obtain ⟨t, ht⟩ := listPoly_lfsrStep hf (by rw [Storage.length_span, hlen])
      (List.ne_nil_of_length_pos (hlen ▸ hn)) hg d
    rw [Storage.length_span, ← generatorPoly_eq hs hgv] at ht
    have hsum : dataPoly s.p (data ++ [d]) * X ^ s.n.toNat - listPoly s.p (s.remainder (data ++ [d])) =
        X * (dataPoly s.p data * X ^ s.n.toNat - listPoly s.p (s.remainder data)) + t * s.generatorPoly := by
      rw [dataPoly_concat, remainder_concat, ht]; ring
    rw [hsum]
    exact dvd_add (ih.mul_left X) (dvd_mul_left _ t)

/-- Negating every entry negates the polynomial (R73). -/
theorem listPoly_map_negate {l : List Nat} (hl : ∀ c ∈ l, c < s.p) :
    listPoly s.p (l.map s.negate) = -listPoly s.p l := by
  induction l with
  | nil => simp [listPoly_nil]
  | cons a l ih =>
    have ha : (s.negate a : ZMod s.p) = -a := by
      by_cases h0 : a = 0
      · rw [h0]; simp [State.negate]
      · rw [State.negate, if_pos h0, Nat.cast_sub (hl a (List.mem_cons_self ..)).le, ZMod.natCast_self, zero_sub]
    rw [List.map_cons, listPoly_cons, listPoly_cons, ih fun c hc => hl c (List.mem_cons_of_mem _ hc), ha, C_neg]
    ring

/-- Data and check codewords together are a multiple of the generator (R76). -/
theorem generatorPoly_dvd_codeword (hs : Invariant s) (hgv : s.gv = true) (data : List Nat) :
    s.generatorPoly ∣ dataPoly s.p data * X ^ s.n.toNat + listPoly s.p (s.encodeRs data) := by
  rw [encodeRs_eq, listPoly_map_negate (remainder_lt data), ← sub_eq_add_neg]
  exact generatorPoly_dvd_sub_remainder hs hgv data

end Sys2Proof.Machine
end

section
/-! PROOFS. The code that a generator built by `BGEN` gives (R64, R76). -/

namespace Sys2Proof.Machine

open Polynomial

variable {s : State}

/-- A legal length fits `N` (R10, R60). -/
theorem toNat_length {n : Nat} (hn : n ≤ 128) : (BitVec.ofNat 8 n).toNat = n := by
  rw [BitVec.toNat_ofNat]; omega

/-- `BGEN` keeps the invariants (R18, R60). -/
theorem invariant_bgen (hs : Invariant s) {n : Nat} (hc : Passes (.bgen n) s) :
    Invariant (effectOf (.bgen n) s) := by
  obtain ⟨hfv, h1, hn⟩ := hc
  have hf := hs.field_ok hfv
  have hn' := toNat_length hn
  obtain ⟨hlt, hmonic⟩ := generator_spec hf n hn
  have hread {k : Nat} (hk : k ≤ n) := toNat_read_bgen hs hfv hn hk
  exact {
    generator_field := fun _ => hfv
    load_field := nofun
    phase_generator := fun h => absurd rfl h
    length_range := fun _ => by
      show 1 ≤ (BitVec.ofNat 8 n).toNat ∧ (BitVec.ofNat 8 n).toNat ≤ 128
      rw [hn']; exact ⟨h1, hn⟩
    length_zero := nofun
    pointer_lt := nofun
    pointer_zero := fun _ => rfl
    field_ok := fun _ => hf.congr rfl rfl rfl rfl
    no_field := fun h => absurd hfv (by rw [show s.fv = false from h]; nofun)
    generator_ok := fun _ => by
      show (∀ k, k ≤ (BitVec.ofNat 8 n).toNat → ((s.g.writeFrom 0 (s.generator n)).read k).toNat < s.p) ∧
        (s.g.writeFrom 0 (s.generator n)).read (BitVec.ofNat 8 n).toNat = 1
      rw [hn']
      exact ⟨fun k hk => hread hk ▸ hlt k hk, BitVec.eq_of_toNat_eq ((hread le_rfl).trans hmonic)⟩
    acc_ok := fun h => absurd rfl h
    no_error := hs.no_error
    error_word := hs.error_word
    legal_codes := ⟨(by decide : Phase.idle.code ≠ 3), errCode_lt _⟩
    error_stored := hs.error_stored
    load_ok := nofun
    storage_wf := by
      obtain ⟨hlog, hpow, hg, hacc⟩ := storageWf_iff.1 hs.storage_wf
      exact storageWf_iff.2 ⟨hlog, hpow,
        Storage.wf_writeFrom _ _ hg _ _ (by rw [length_generator, Config.gDepth, Config.eccMax]; omega), hacc⟩ }

/-- The generator polynomial vanishes at its roots (R64). -/
theorem eval_genpoly (p root : Nat) {i n : Nat} (hi : i < n) :
    eval ((root : ZMod p) ^ i) (genpoly p root n) = 0 := by
  rw [genpoly, eval_prod]
  exact Finset.prod_eq_zero (Finset.mem_range.2 hi) (by simp [Config.genFirstExp])

/-- The generator held after `BGEN n` is the product of R64. -/
theorem generatorPoly_bgen (hs : Invariant s) (hfv : s.fv = true) {n : Nat} (hn : n ≤ 128) :
    (effectOf (.bgen n) s).generatorPoly = genpoly s.p s.root.toNat n := by
  show coeffPoly s.p ((BitVec.ofNat 8 n).toNat + 1)
    (fun k => ((s.g.writeFrom 0 (s.generator n)).read k).toNat) = _
  rw [toNat_length hn, coeffPoly_read, span_bgen hs hfv hn, listPoly_generator_eq_genpoly (hs.field_ok hfv) hn]

/-- Settles O42: the code word is a multiple of the generator built, which vanishes at the roots. -/
theorem builtCodeVanishesAtTheRoots : Obligations.BuiltCodeVanishesAtTheRoots := by
  intro s n data hs hok hfv h1 hn hd
  have hinv : Invariant ((effectOf (.bgen n) s).answered 0) := (invariant_bgen hs ⟨hfv, h1, hn⟩).answer .ok 0
  obtain ⟨acc, hrun, -, hspan, -⟩ := execAll_encode hinv hok rfl hd
  have hlen : ((effectOf (.bgen n) s).answered 0).n.toNat = n := toNat_length hn
  rw [hlen] at hspan
  refine ⟨_, (execAll_cons (exec_bgen hok hfv h1 hn)).trans hrun, rfl, hlen, fun i hi => ?_⟩
  have hdvd : genpoly s.p s.root.toNat n ∣ dataPoly s.p data * X ^ n + listPoly s.p (acc.span n) := by
    rw [← generatorPoly_bgen hs hfv hn, hspan]
    have h := generatorPoly_dvd_codeword hinv rfl data
    rwa [hlen] at h
  rw [coeffPoly_read]
  exact eval_eq_zero_of_dvd_of_eval_eq_zero hdvd (eval_genpoly _ _ hi)

end Sys2Proof.Machine
end

section
/-! PROOFS. `EDATA` (R71, R72), and what a whole encode computes (R76, R77): the accumulator is the remainder of
`D(x) x^n` on division by the generator, and the check codewords are its negation. -/

namespace Sys2Proof.Machine

open Polynomial

variable {s : State}

/-! ## The entries of an accumulator that holds a list -/

theorem HoldsInAcc.toNat_read {acc : Storage} {l : List Nat} (h : HoldsInAcc s acc l) {j : Nat}
    (hj : j < s.n.toNat) : (acc.read j).toNat = l.getD j 0 := by
  rw [← h.span, Storage.getD_span _ _ _ hj]

/-- `ACC[0 .. N-1]` as a polynomial is the polynomial of the list held (R76). -/
theorem HoldsInAcc.coeffPoly_eq {acc : Storage} {l : List Nat} (h : HoldsInAcc s acc l) (p : Nat) :
    coeffPoly p s.n.toNat (fun k => (acc.read k).toNat) = listPoly p l := by
  rw [coeffPoly_read, h.span]

/-- A list of field values in the accumulator: every entry read is a field value (R71, R73). -/
theorem HoldsInAcc.toNat_read_lt {acc : Storage} {l : List Nat} (h : HoldsInAcc s acc l) (hl : ∀ c ∈ l, c < s.p)
    {j : Nat} (hj : j < s.n.toNat) : (acc.read j).toNat < s.p := by
  have hlen : j < l.length := by rwa [← h.span, Storage.length_span]
  rw [h.toNat_read hj, List.getD_eq_getElem _ _ hlen]
  exact hl _ (List.getElem_mem hlen)

/-! ## One data codeword -/

/-- `EDATA d` under the invariants leaves the step of the shift register on the accumulator before it (R71, R72). -/
theorem exec_edata_step (hs : Invariant s) (hok : s.err = .ok) (hphase : s.phase = .encoding)
    (hn : 1 ≤ s.n.toNat ∧ s.n.toNat ≤ Config.eccMax) {d : Nat} (hd : d < s.p) :
    ∃ acc, exec (.edata d) s = .next { s with acc := acc, rsp := some ⟨.ok, 0⟩ } ∧
      HoldsInAcc s acc (s.lfsrStep (s.g.span s.n.toNat) (s.acc.span s.n.toNat) d) := by
  have hexists : entriesExist (.edata d) s = true :=
    Bool.and_eq_true_iff.2 ⟨decide_eq_true hn.1, decide_eq_true hn.2⟩
  have hne : s.acc.span s.n.toNat ≠ [] := List.ne_nil_of_length_pos (by rw [Storage.length_span]; exact hn.1)
  exact ⟨_, exec_passes hok ⟨hphase, hd⟩ hexists, .writeFrom hs.storage_wf.acc (fun _ _ => rfl)
    (by rw [length_lfsrStep _ _ _ (by simp) hne, Storage.length_span]) (lfsrStep_lt _ _ d)⟩

/-- Settles O36: the entries that `EDATA` leaves are those of the step of the shift register (R71). -/
theorem edataIsTheShiftRegisterStep : Obligations.EdataIsTheShiftRegisterStep := by
  intro s d t hs hok hphase hd ht
  have hgv : s.gv = true := hs.phase_generator (by rw [hphase]; nofun)
  have hn := hs.length_range (.inl hgv)
  obtain ⟨acc, hrun, hacc⟩ := exec_edata_step hs hok hphase hn hd
  have hlen : (s.g.span s.n.toNat).length = (s.acc.span s.n.toNat).length := by simp
  have hne : s.acc.span s.n.toNat ≠ [] := List.ne_nil_of_length_pos (by rw [Storage.length_span]; exact hn.1)
  have ht' : (d + (s.acc.span s.n.toNat).getLastD 0) % s.p = t := by rw [getLastD_span _ _ hn.1, ht]
  refine ⟨acc, hrun, ?_, fun j hj1 hj => ?_, fun j hj => hacc.toNat_read_lt (lfsrStep_lt _ _ d) hj, hacc.other⟩
  · rw [hacc.toNat_read hn.1, getD_lfsrStep_zero _ _ _ hlen hne, ht', Storage.getD_span _ _ _ hn.1]
  · obtain ⟨i, rfl⟩ : ∃ i, j = i + 1 := ⟨j - 1, by omega⟩
    rw [hacc.toNat_read hj, getD_lfsrStep_succ _ _ _ hlen i (by rwa [Storage.length_span]), ht',
      Storage.getD_span _ _ _ hj, Storage.getD_span _ _ _ (by omega), Nat.add_sub_cancel]

/-! ## The accumulator is the remainder of the division by the generator (R76) -/

theorem degree_listPoly_lt (p : Nat) (l : List Nat) : (listPoly p l).degree < l.length :=
  (degree_lt_iff_coeff_zero _ _).2 fun k hk => by
    rw [coeff_listPoly, List.getD_eq_default _ _ hk, Nat.cast_zero]

/-- The coefficients below the leading one, `G[0 .. N-1]`, make a polynomial of degree below `N`. -/
theorem degree_generatorPoly_tail_lt (s : State) :
    (listPoly s.p (s.g.span s.n.toNat)).degree < (s.n.toNat : WithBot ℕ) := by
  simpa using degree_listPoly_lt s.p (s.g.span s.n.toNat)

theorem generatorPoly_monic (hs : Invariant s) (hgv : s.gv = true) : s.generatorPoly.Monic := by
  rw [generatorPoly_eq hs hgv, add_comm]
  exact monic_X_pow_add (degree_generatorPoly_tail_lt s)

theorem degree_generatorPoly (hs : Invariant s) (hgv : s.gv = true) : s.generatorPoly.degree = s.n.toNat := by
  have : Fact s.p.Prime := ⟨s.p_prime⟩
  have htail : (listPoly s.p (s.g.span s.n.toNat)).degree < (X ^ s.n.toNat : (ZMod s.p)[X]).degree := by
    rw [degree_X_pow]; exact degree_generatorPoly_tail_lt s
  rw [generatorPoly_eq hs hgv, degree_add_eq_right_of_degree_lt htail, degree_X_pow]

/-- The remainder that the shift register leaves is the one of the division: it differs from `D(x) x^n` by a multiple of
the generator and has a smaller degree (R76). -/
theorem listPoly_remainder (hs : Invariant s) (hgv : s.gv = true) (data : List Nat) :
    listPoly s.p (s.remainder data) = (dataPoly s.p data * X ^ s.n.toNat) %ₘ s.generatorPoly := by
  have : Fact s.p.Prime := ⟨s.p_prime⟩
  obtain ⟨q, hq⟩ := generatorPoly_dvd_sub_remainder hs hgv data
  have hsum : listPoly s.p (s.remainder data) + s.generatorPoly * q = dataPoly s.p data * X ^ s.n.toNat := by
    rw [← hq]; ring
  have hdegree : (listPoly s.p (s.remainder data)).degree < s.generatorPoly.degree := by
    rw [degree_generatorPoly hs hgv, ← length_remainder (hs.length_range (.inl hgv)).1 data]
    exact degree_listPoly_lt _ _
  exact (div_modByMonic_unique q _ (generatorPoly_monic hs hgv) ⟨hsum, hdegree⟩).2.symm

/-- Settles O39: the commands leave the remainder that the shift register computes. -/
theorem encodingHoldsTheRemainder : Obligations.EncodingHoldsTheRemainder := by
  intro s data hs hok hgv hd
  obtain ⟨acc, hrun, hacc⟩ := execAll_einit_edata hs hok hgv hd
  exact ⟨acc, hrun, (hacc.coeffPoly_eq s.p).trans (listPoly_remainder hs hgv data)⟩

/-! ## The check codewords (R76, R77) -/

/-- Every check codeword is a field value (R73, R77). -/
theorem encodeRs_lt (data : List Nat) : ∀ c ∈ s.encodeRs data, c < s.p := by
  intro c hc
  obtain ⟨a, ha, rfl⟩ := List.mem_map.1 (encodeRs_eq data ▸ hc)
  exact negate_lt (remainder_lt data a ha)

theorem length_encodeRs (hn : 1 ≤ s.n.toNat) (data : List Nat) : (s.encodeRs data).length = s.n.toNat := by
  rw [encodeRs_eq, List.length_map, length_remainder hn]

/-- Settles O40: `ENCODE` leaves the check codewords, and these complete the data to a multiple of the generator. -/
theorem encodeGivesAMultipleOfTheGenerator : Obligations.EncodeGivesAMultipleOfTheGenerator := by
  intro s data hs hok hgv hd
  obtain ⟨acc, hrun, hacc⟩ := execAll_encode hs hok hgv hd
  refine ⟨acc, hrun, fun j hj => hacc.toNat_read_lt (encodeRs_lt data) hj, hacc.other, ?_⟩
  rw [hacc.coeffPoly_eq]
  exact generatorPoly_dvd_codeword hs hgv data

/-- Settles O41: `ENCODE` leaves in the accumulator what the loop of R77 returns. -/
theorem encodeIsEncodeRs : Obligations.EncodeIsEncodeRs := by
  intro s data hs hok hgv hd
  obtain ⟨acc, hrun, hacc⟩ := execAll_encode hs hok hgv hd
  exact ⟨_, hrun, hacc.span, length_encodeRs (hs.length_range (.inl hgv)).1 data, encodeRs_lt data⟩

end Sys2Proof.Machine
end

section
/-! PROOFS. R82: `RST` puts the block in its reset state, and no other command leaves the halt. -/

namespace Sys2Proof.Machine

/-- No command but `RST` has an effect on `ERR` (R82, R113). -/
theorem effectOf_err {i : Instr} (hi : i ≠ .rst) (s : State) : (effectOf i s).err = s.err := by
  cases i with
  | rst => exact absurd rfl hi
  | gpush v => exact State.advanceLoad_err _
  | nop | rdr | bfld | gmul | rdlog | rdpow | bgen | gload | rdg | einit | edata | efin | rdchk | rdacc => rfl

/-- A command other than `RST` leaves a halted block halted: an answer keeps `ERR`, no second error is taken, and an
effect does not touch `ERR` (R112, R113). -/
theorem exec_keeps_halt {i : Instr} (hi : i ≠ .rst) {s t : State} (hs : s.err ≠ .ok) (h : exec i s = .next t) :
    t.err = s.err := by
  obtain ⟨-, rfl⟩ | ⟨hok, -⟩ | ⟨-, rfl⟩ := exec_next h
  · exact State.answer_err ..
  · exact absurd hok hs
  · exact effectOf_err hi s

/-- Settles O20: the storage left open is the storage before `RST`, and every other command keeps the halt. -/
theorem rstResetsEveryRegister : Obligations.RstResetsEveryRegister := by
  refine ⟨fun s => ⟨s.log, s.pow, s.g, s.acc, rfl⟩, fun i s t hs h ht => ?_⟩
  by_contra hi
  exact hs (exec_keeps_halt hi hs h ▸ ht)

end Sys2Proof.Machine
end

section
/-! PROOFS. A word that decodes is the word of its command (R40, R43, R47): the decoder reads each operand as it stands
and finds 0 in each field that the command does not use, which is what the encoder writes there. -/

namespace Sys2Proof

variable {op : BitVec 8} {a b : BitVec 12} {i : Instr}

theorem encode_of_noOperand {c : Instr} (hop : opcode c = op) (hargs : c.operands = [])
    (h : noOperand a b c = .ok i) : encode i = commandWord op a b := by
  unfold noOperand at h
  split at h
  · rename_i hzero
    obtain ⟨rfl, rfl⟩ := hzero
    cases h
    simp [encode, operandA, operandB, hop, hargs]
  · cases h

theorem encode_of_oneOperand {c : Nat → Instr} (hop : ∀ x, opcode (c x) = op) (hargs : ∀ x, (c x).operands = [x])
    (h : oneOperand a b c = .ok i) : encode i = commandWord op a b := by
  unfold oneOperand at h
  split at h
  · rename_i hzero
    subst hzero
    cases h
    simp [encode, operandA, operandB, hop, hargs]
  · cases h

theorem encode_of_twoOperands {c : Nat → Nat → Instr} (hop : ∀ x y, opcode (c x y) = op)
    (hargs : ∀ x y, (c x y).operands = [x, y]) (h : twoOperands a b c = .ok i) :
    encode i = commandWord op a b := by
  cases h
  simp [encode, operandA, operandB, hop, hargs]

/-- The decoder loses no bit of the three fields. -/
theorem encode_of_decodeFields (h : decodeFields op a b = .ok i) : encode i = commandWord op a b := by
  unfold decodeFields at h
  split at h
  case h_1 | h_2 | h_12 | h_14 => exact encode_of_noOperand rfl rfl h
  case h_4 | h_5 => exact encode_of_twoOperands (fun _ _ => rfl) (fun _ _ => rfl) h
  case h_17 => cases h
  all_goals exact encode_of_oneOperand (fun _ => rfl) (fun _ => rfl) h -- the ten commands with the one operand `A`

/-- The word that `ERRCMD` takes as `encode i` is the accepted word. -/
theorem encode_of_decode {w : Word} (h : decode w = .ok i) : encode i = w :=
  (encode_of_decodeFields h).trans (commandWord_fields w)

end Sys2Proof
end

section
/-! PROOFS. The errors of a command (R102 to R106, R110): the first check that fails is the error taken. -/

namespace Sys2Proof.Machine

variable {i : Instr} {s : State} {e : ErrCode}

/-- R110, R111: in a block that is not halted, the first check that fails is the error that the command takes. -/
theorem exec_fails (hok : s.err = .ok) (hc : firstFailure (checksOf i s) = some e) :
    exec i s = .next (s.failed i e) := by
  rw [exec_eq, if_pos (.inr hok), runOf, hc]
  rfl

/-- The check written first takes precedence over all others (R110). -/
theorem exec_fails_first {b : Bool} {cs : List (Bool × ErrCode)} (hok : s.err = .ok)
    (hc : checksOf i s = (b, e) :: cs) (hb : b = true) : exec i s = .next (s.failed i e) :=
  exec_fails hok (by rw [hc, hb, firstFailure_cons_true])

/-- A command that has its prerequisite and does not pass its checks has an operand out of range. -/
theorem exec_out_of_range {prerequisite : Bool × ErrCode} {outOfRange : Bool} (hok : s.err = .ok)
    (hc : checksOf i s = [prerequisite, (outOfRange, .range)]) (hpre : prerequisite.1 = false)
    (hfails : ¬ Passes i s) : exec i s = .next (s.failed i .range) := by
  obtain ⟨b, e⟩ := prerequisite
  obtain rfl : b = false := hpre
  have hrange : outOfRange = true := by
    by_contra hin
    exact hfails ((checksOf_none_iff i s).1 (by simp [hc, hin]))
  exact exec_fails hok (by rw [hc, hrange, firstFailure_cons_false, firstFailure_cons_true])

/-- Settles O13: the prerequisite is the first check of its command. -/
theorem missingPrerequisiteFails : Obligations.MissingPrerequisiteFails := by
  intro s hok
  refine ⟨fun hfv => ?_, fun hgv => ?_, fun hgld v => exec_fails_first hok rfl (congrArg not hgld),
    fun hphase => ?_, fun hphase j => exec_fails_first hok rfl (decide_eq_true hphase),
    fun hphase j => exec_fails_first hok rfl (decide_eq_true hphase)⟩
  · have missing : (!s.fv) = true := congrArg not hfv
    exact ⟨fun a b => exec_fails_first hok rfl missing, fun x => exec_fails_first hok rfl missing,
      fun i => exec_fails_first hok rfl missing, fun n => exec_fails_first hok rfl missing,
      fun n => exec_fails_first hok rfl missing⟩
  · have missing : (!s.gv) = true := congrArg not hgv
    exact ⟨fun k => exec_fails_first hok rfl missing, exec_fails_first hok rfl missing⟩
  · have missing : decide (s.phase ≠ .encoding) = true := decide_eq_true hphase
    exact ⟨fun d => exec_fails_first hok rfl missing, exec_fails_first hok rfl missing⟩

/-- `BFLD` checks both operands for their range before it looks at the powers of the root (R50). -/
theorem exec_bfld_out_of_range {msel root : Nat} (hok : s.err = .ok)
    (h : 1 < msel ∨ root = 0 ∨ modulus (BitVec.ofNat 1 msel) ≤ root) :
    exec (.bfld msel root) s = .next (s.failed (.bfld msel root) .range) := by
  rcases Nat.lt_or_ge 1 msel with hm | hm
  · exact exec_fails_first hok rfl (decide_eq_true hm)
  · have selects : noModulus msel = false := (noModulus_passes msel).2 hm
    have bad : badRoot (modulus (BitVec.ofNat 1 msel)) root = true :=
      decide_eq_true (h.resolve_left (Nat.not_lt.2 hm))
    exact exec_fails hok (by simp [checksOf, selects, bad])

/-- Settles O14: each command holds its prerequisite, and an operand in the list does not pass. -/
theorem operandOutOfRangeFails : Obligations.OperandOutOfRangeFails := by
  intro s hok
  have field (hfv : s.fv = true) : s.needsField.1 = false := (needsField_passes s).2 hfv
  refine ⟨fun msel root h => exec_bfld_out_of_range hok h, fun hfv a b h => ?_, fun hfv x h => ?_,
    fun hfv i h => ?_, fun hfv n h => ⟨?_, ?_⟩, fun hgld v h => ?_, fun hgv k h => ?_, fun hph d h => ?_,
    fun hph j h => ?_, fun hph j h => ?_, fun sel h => exec_fails_first hok rfl (decide_eq_true h)⟩
  · exact exec_out_of_range hok rfl (field hfv) fun ⟨_, ha, hb⟩ => by omega
  · exact exec_out_of_range hok rfl (field hfv) fun ⟨_, hx, hx'⟩ => by omega
  · exact exec_out_of_range hok rfl (field hfv) fun ⟨_, hi⟩ => Nat.not_lt.2 h hi
  · exact exec_out_of_range hok rfl (field hfv) fun ⟨_, hn, hn'⟩ => by omega
  · exact exec_out_of_range hok rfl (field hfv) fun ⟨_, hn, hn'⟩ => by omega
  · exact exec_out_of_range hok rfl ((needsLoad_passes s).2 hgld) fun ⟨_, hv⟩ => Nat.not_lt.2 h hv
  · exact exec_out_of_range hok rfl ((needsGenerator_passes s).2 hgv) fun ⟨_, hk⟩ => Nat.not_le.2 h hk
  · exact exec_out_of_range hok rfl ((needsEncoding_passes s).2 hph) fun ⟨_, hd⟩ => Nat.not_lt.2 h hd
  · exact exec_out_of_range hok rfl ((needsDone_passes s).2 hph) fun ⟨_, hj⟩ => Nat.not_lt.2 h hj
  · exact exec_out_of_range hok rfl ((needsEncode_passes s).2 hph) fun ⟨_, hj⟩ => Nat.not_lt.2 h hj

/-- Settles O15: the operands pass, and a power of the root that is 1 too early shows that it is not primitive. -/
theorem nonPrimitiveRootFails : Obligations.NonPrimitiveRootFails := by
  intro s msel root j hok hm hr hr' hj hj' hpow
  have selects : noModulus msel = false := (noModulus_passes msel).2 hm
  have inRange : badRoot (modulus (BitVec.ofNat 1 msel)) root = false := (badRoot_passes _ root).2 ⟨hr, hr'⟩
  have notPrimitive : isPrimitive (modulus (BitVec.ofNat 1 msel)) root = false :=
    Bool.eq_false_iff.2 fun hp => (isPrimitive_iff _ root).1 hp j hj hj' hpow
  exact exec_fails hok (by simp [checksOf, selects, inRange, notPrimitive])

end Sys2Proof.Machine
end

section
/-! PROOFS. Accepted words, legal or illegal (R45), in a block that is not halted (R111) and in a halted one (R112,
R113, R114). -/

namespace Sys2Proof.Machine

variable {w : Word} {s t : State}

theorem stepWord_legal {i : Instr} (h : decode w = .ok i) (s : State) : stepWord w s = exec i s := by
  simp only [stepWord, h]

theorem stepWord_illegal {x : Illegal} (h : decode w = .error x) (s : State) : stepWord w s = execIllegal w s := by
  simp only [stepWord, h]

/-- All that an accepted word can do: be answered `E_HALTED` (R112), fail and be latched itself (R111), or take effect
as the command it decodes to. -/
theorem stepWord_next (h : stepWord w s = .next t) :
    (s.err ≠ .ok ∧ t = s.answer .halted 0) ∨
    (s.err = .ok ∧ ∃ e, e ≠ .ok ∧ t = (s.latch e w).answer e 0) ∨
    (∃ i, decode w = .ok i ∧ t = (effectOf i s).answer .ok (valueOf i s)) := by
  cases hd : decode w with
  | ok i =>
    rw [stepWord_legal hd] at h
    obtain halted | ⟨hok, e, he, rfl⟩ | ⟨-, rfl⟩ := exec_next h
    · exact .inl halted
    · exact .inr (.inl ⟨hok, e, checksOf_ne_ok i s he, by rw [encode_of_decode hd]⟩)
    · exact .inr (.inr ⟨i, rfl, rfl⟩)
  | error x =>
    rw [stepWord_illegal hd, execIllegal] at h
    by_cases hok : s.err = .ok
    · rw [unlessHalted_running hok] at h
      exact .inr (.inl ⟨hok, .illegal, nofun, (Host.Outcome.next.inj h).symm⟩)
    · rw [unlessHalted_halted hok] at h
      exact .inl ⟨hok, (Host.Outcome.next.inj h).symm⟩

/-- Settles O11: of all that an accepted word can do, only a failure answers an error in a block that is not halted. -/
theorem failureChangesOnlyErrorRegisters : Obligations.FailureChangesOnlyErrorRegisters := by
  intro w s t r hok h hr herr
  obtain ⟨halted, -⟩ | ⟨-, e, -, rfl⟩ | ⟨i, -, rfl⟩ := stepWord_next h
  · exact absurd hok halted
  · obtain rfl : ⟨e, 0⟩ = r := Option.some.inj hr
    rfl
  · obtain rfl : ⟨.ok, valueOf i s⟩ = r := Option.some.inj hr
    exact absurd rfl herr

/-! ## The halted block -/

theorem ignoresHalt_iff (i : Instr) : ignoresHalt i = true ↔ i = .rst ∨ ∃ sel, sel ≤ 6 ∧ i = .rdr sel := by
  cases i <;> simp [ignoresHalt]

/-- R112: in a halted block every word but `RST` and a valid `RDR` is answered `E_HALTED`, legal or illegal. -/
theorem stepWord_halted (hs : s.err ≠ .ok) (hrst : decode w ≠ .ok .rst)
    (hrdr : ∀ sel, sel ≤ 6 → decode w ≠ .ok (.rdr sel)) : stepWord w s = .next (s.answer .halted 0) := by
  cases hd : decode w with
  | ok i =>
    have tested : ¬ ignoresHalt i = true := by
      rw [ignoresHalt_iff]
      rintro (rfl | ⟨sel, hsel, rfl⟩)
      · exact hrst hd
      · exact hrdr sel hsel hd
    rw [stepWord_legal hd, exec_eq, if_neg (not_or.2 ⟨tested, hs⟩), answerHalted]
  | error x => rw [stepWord_illegal hd, execIllegal, unlessHalted_halted hs]

/-- R83, R114: halted or not, a valid `RDR` responds its register and does nothing else. -/
theorem stepWord_rdr {sel : Nat} (hsel : sel ≤ 6) (h : decode w = .ok (.rdr sel)) (s : State) :
    ∃ v, s.register sel = some v ∧ stepWord w s = .next (s.answered v) := by
  obtain ⟨v, hv⟩ := register_eq_some s hsel
  exact ⟨v, hv, (stepWord_legal h s).trans (exec_rdr_register hv)⟩

/-- R113: in a halted block every word but `RST` does nothing but respond. -/
theorem stepWord_halted_responds (hs : s.err ≠ .ok) (hrst : decode w ≠ .ok .rst) :
    ∃ r, stepWord w s = .next { s with rsp := some r } := by
  by_cases hrdr : ∃ sel, sel ≤ 6 ∧ decode w = .ok (.rdr sel)
  · obtain ⟨sel, hsel, hd⟩ := hrdr
    obtain ⟨v, -, h⟩ := stepWord_rdr hsel hd s
    exact ⟨⟨.ok, v⟩, h⟩
  · exact ⟨⟨.halted, 0⟩, stepWord_halted hs hrst fun sel hsel hd => hrdr ⟨sel, hsel, hd⟩⟩

/-- A reset gives every register and flag its reset value, whether a response follows (R82) or not (R121). -/
theorem resetRegisters_registersReset (s : State) (r : Option Response) :
    RegistersReset { s.resetRegisters with rsp := r } :=
  ⟨rfl, rfl, rfl, rfl, rfl, rfl, rfl, rfl, rfl, rfl⟩

/-- R44, R45: the step at which a word is accepted runs the word. -/
theorem step_of_accepts {rest : List PortIn} (h : Accepts s w rest) :
    step s = stepWord w { s with port := rest } := by
  obtain ⟨sig, hport, hrst, hvalid, rfl, hrsp⟩ := h
  simp [step, edge, State.cmdReady, hport, hrst, hvalid, hrsp]

/-- Settles O7: the three kinds of words at a halted block. -/
theorem haltedBlockAnswersOnlyResetAndReads : Obligations.HaltedBlockAnswersOnlyResetAndReads := by
  intro s w rest hacc hs
  rw [step_of_accepts hacc]
  refine ⟨fun hrst hrdr => stepWord_halted (s := { s with port := rest }) hs hrst hrdr, fun hd => ?_,
    fun sel hsel hd => stepWord_rdr hsel hd { s with port := rest }⟩
  exact ⟨_, stepWord_legal hd _, resetRegisters_registersReset { s with port := rest } (some ⟨.ok, 0⟩), rfl, rfl⟩

/-- Settles O12: of all that a step can do, only the two resets touch more than the response and the port. -/
theorem onlyResetLeavesTheHalt : Obligations.OnlyResetLeavesTheHalt := by
  intro s t hs h
  obtain ⟨-, rfl⟩ | ⟨sig, rest, hport, hedge⟩ := step_next h
  · exact .inl rfl
  obtain ⟨hrst, rfl⟩ | ⟨hrst, hrsp, hvalid, hword⟩ | ⟨-, -, -, rfl⟩ | ⟨-, rfl⟩ := edge_next hedge
  · exact .inr ⟨resetRegisters_registersReset { s with port := rest } none, .inl ⟨sig, rest, hport, hrst⟩⟩
  · by_cases hd : decode sig.cmd = .ok .rst
    · rw [stepWord_legal hd] at hword
      obtain rfl := respond_next hword
      exact .inr ⟨resetRegisters_registersReset { s with port := rest } (some ⟨.ok, 0⟩),
        .inr ⟨sig.cmd, rest, ⟨sig, hport, hrst, hvalid, rfl, hrsp⟩, hd⟩⟩
    · obtain ⟨r, hr⟩ := stepWord_halted_responds (s := { s with port := rest }) hs hd
      obtain rfl := Host.Outcome.next.inj (hr.symm.trans hword)
      exact .inl rfl
  · exact .inl rfl
  · exact .inl rfl

end Sys2Proof.Machine
end

section
/-! PROOFS. `BFLD` with a primitive root (R50, R51, R126): what the two tables read afterwards, entry by entry. -/

namespace Sys2Proof.Machine

section BuiltTables

variable {q r : Nat} (hq : q.Prime) (hle : q ≤ 929) (h1 : 1 ≤ r) (h2 : r < q) {m : Storage} (hm : m.sorted)

include hq hle h1 h2 hm

/-- R51: a readable entry of the built antilog table is the power of the root, which fits its 10 bits. -/
theorem toNat_read_buildPow {i : Nat} (hi : i < 2 * (q - 1)) : ((buildPow q r m).read i).toNat = r ^ i % q := by
  have fits : r ^ i % q < 1024 := (Nat.mod_lt _ hq.pos).trans_le (by omega)
  rw [read_buildPow hq h1 h2 m hm, if_pos hi, toNat_entry fits]

/-- R51: the second copy of the antilog table repeats the first. -/
theorem toNat_read_buildPow_copy {j : Nat} (hj : j ≤ q - 2) :
    ((buildPow q r m).read (j + q - 1)).toNat = r ^ j % q := by
  have := hq.two_le
  rw [show j + q - 1 = j + (q - 1) by omega, toNat_read_buildPow hq hle h1 h2 hm (by omega),
    root_pow_last hq h1 h2]

/-- R51: the built log table inverts the powers of a primitive root. -/
theorem toNat_read_buildLog (hprim : isPrimitive q r = true) {j : Nat} (hj : j ≤ q - 2) :
    ((buildLog q r m).read (r ^ j % q)).toNat = j := by
  rw [read_buildLog hq h1 h2 hprim m hm j hj, toNat_entry (by omega)]

end BuiltTables

/-- The build leaves the antilog table as it was from entry `2(q-1)` on (R50, R16). -/
theorem read_buildPow_other {q r : Nat} (hq : q.Prime) (h1 : 1 ≤ r) (h2 : r < q) {m : Storage} (hm : m.sorted)
    {i : Nat} (hi : 2 * (q - 1) ≤ i) : (buildPow q r m).read i = m.read i := by
  rw [read_buildPow hq h1 h2 m hm, if_neg (Nat.not_lt.2 hi)]

/-- Settles O24: the command passes its checks and takes effect, and the tables of that effect are the built ones. -/
theorem bfldBuildsTheTables : Obligations.BfldBuildsTheTables := by
  rintro s msel root q hwf hok hmsel rfl h1 h2 hprim
  have hq := modulus_prime (BitVec.ofNat 1 msel)
  have hle : modulus (BitVec.ofNat 1 msel) ≤ 929 := by rcases modulus_eq (BitVec.ofNat 1 msel) with h | h <;> omega
  have := hq.two_le
  refine ⟨_, _, exec_passes hok ⟨hmsel, ⟨h1, h2⟩, hprim⟩ rfl, fun j hj => ⟨?_, ?_, ?_⟩, fun x hx => ?_, fun i hi => ?_⟩
  · exact toNat_read_buildPow hq hle h1 h2 hwf.pow (by omega)
  · exact toNat_read_buildPow_copy hq hle h1 h2 hwf.pow hj
  · exact toNat_read_buildLog hq hle h1 h2 hwf.log hprim hj
  · exact read_buildLog_other hq h1 h2 s.log hwf.log x hx
  · exact read_buildPow_other hq h1 h2 hwf.pow hi

end Sys2Proof.Machine
end

section
/-! PROOFS. The edges at which no command is accepted (R44, R121, R127): what each of them does to the block. -/

namespace Sys2Proof.Machine

variable {s : State} {sig : PortIn} {rest : List PortIn}

theorem step_of_port_nil (h : s.port = []) : step s = .next s := by
  simp only [step, h]

theorem step_of_port_cons (h : s.port = sig :: rest) : step s = edge sig { s with port := rest } := by
  simp only [step, h]

/-! ## The handshake outputs -/

/-- R121: `cmd_ready` is 0 while `rst` is high. -/
theorem cmdReady_of_rst (h : sig.rst = true) (s : State) : s.cmdReady sig = false := by
  simp [State.cmdReady, h]

/-- R121: `rsp_valid` is 0 while `rst` is high. -/
theorem rspValid_of_rst (h : sig.rst = true) (s : State) : s.rspValid sig = false := by
  simp [State.rspValid, h]

/-- R44, R127: `cmd_ready` is 0 while a response is undelivered. -/
theorem cmdReady_of_rsp (h : s.rsp ≠ none) (sig : PortIn) : s.cmdReady sig = false := by
  rw [State.cmdReady, Option.isNone_eq_false_iff.2 (Option.isSome_iff_ne_none.2 h), Bool.and_false]

/-- R44: without `rst`, `rsp_valid` says that a response is undelivered. -/
theorem rspValid_iff (h : sig.rst = false) (s : State) : s.rspValid sig = true ↔ s.rsp ≠ none := by
  simp [State.rspValid, h, Option.isSome_iff_ne_none]

/-! ## The edges -/

theorem edge_of_rst (h : sig.rst = true) (s : State) : edge sig s = .next (hardReset s) := if_pos h

/-- R44, R127: while a response is undelivered an edge without `rst` only asks whether the host takes it, whatever
command the host offers. -/
theorem edge_undelivered (hrst : sig.rst = false) (hrsp : s.rsp ≠ none) :
    edge sig s = if sig.rspReady then .next { s with rsp := none } else .next s := by
  simp [edge, hrst, cmdReady_of_rsp hrsp, (rspValid_iff hrst s).2 hrsp]

theorem edge_delivers (hrst : sig.rst = false) (hrsp : s.rsp ≠ none) (hready : sig.rspReady = true) :
    edge sig s = .next { s with rsp := none } := (edge_undelivered hrst hrsp).trans (if_pos hready)

theorem edge_holds (hrst : sig.rst = false) (hrsp : s.rsp ≠ none) (hready : sig.rspReady = false) :
    edge sig s = .next s := (edge_undelivered hrst hrsp).trans (if_neg (Bool.eq_false_iff.1 hready))

/-- R44: with no response to deliver and no command offered nothing happens. -/
theorem edge_idles (hrst : sig.rst = false) (hrsp : s.rsp = none) (hvalid : sig.cmdValid = false) :
    edge sig s = .next s := by
  have notValid : s.rspValid sig = false := Bool.eq_false_iff.2 fun hv => (rspValid_iff hrst s).1 hv hrsp
  simp [edge, hrst, hvalid, notValid]

/-- Settles O8: the edge is a hard reset, of which only the storage and the signals to come are not those of
`State.reset`. -/
theorem hardResetAtAnyTime : Obligations.HardResetAtAnyTime := by
  intro s sig rest hport hrst
  refine ⟨cmdReady_of_rst hrst s, rspValid_of_rst hrst s, s.log, s.pow, s.g, s.acc, ?_⟩
  rw [step_of_port_cons hport, edge_of_rst hrst]
  rfl

/-- Settles O9: the step is the edge, and the response and the signals say which of the three edges it is. -/
theorem oneCommandInTheBlock : Obligations.OneCommandInTheBlock := by
  refine ⟨fun s sig rest hport hrst => ?_, fun s hport => step_of_port_nil hport⟩
  rw [step_of_port_cons hport]
  exact ⟨edge_delivers (s := { s with port := rest }) hrst, edge_holds (s := { s with port := rest }) hrst,
    edge_idles (s := { s with port := rest }) hrst⟩

end Sys2Proof.Machine
end

section
/-! PROOFS. Commands and words are inverse to each other (R40, R43), words written out in the spec, and the byte order
of a narrow transport (R32). -/

namespace Sys2Proof

variable {i : Instr}

/-! ## The decoder reads back the operands that the encoder writes (R40, R41) -/

theorem toNat_operand {x : Nat} (hx : OperandFits x) : (BitVec.ofNat 12 x).toNat = x := by
  rw [BitVec.toNat_ofNat, Nat.mod_eq_of_lt hx]

theorem oneOperand_ofNat {x : Nat} (hx : OperandFits x) (c : Nat → Instr) :
    oneOperand (BitVec.ofNat 12 x) 0 c = .ok (c x) := by
  rw [oneOperand, if_pos rfl, toNat_operand hx]

theorem twoOperands_ofNat {x y : Nat} (hx : OperandFits x) (hy : OperandFits y) (c : Nat → Nat → Instr) :
    twoOperands (BitVec.ofNat 12 x) (BitVec.ofNat 12 y) c = .ok (c x y) := by
  rw [twoOperands, toNat_operand hx, toNat_operand hy]

/-- The decoder sees the opcode and the two operand fields that the encoder has put together (R40). -/
theorem decode_encode_eq (i : Instr) : decode (encode i) = decodeFields (opcode i) (operandA i) (operandB i) := by
  rw [decode, encode, opField_commandWord, fieldA_commandWord, fieldB_commandWord]

/-- R43: the word of a command whose operands fit decodes to the command. -/
theorem decode_encode (h : WellFormed i) : decode (encode i) = .ok i := by
  rw [decode_encode_eq]
  cases i with
  | nop | rst | einit | efin => rfl
  | bfld x y | gmul x y =>
    have hx : OperandFits x := h x (List.mem_cons_self ..)
    have hy : OperandFits y := h y (by simp [Instr.operands])
    exact twoOperands_ofNat hx hy _
  | rdr x | rdlog x | rdpow x | bgen x | gload x | gpush x | rdg x | edata x | rdchk x | rdacc x =>
    have hx : OperandFits x := h x (List.mem_cons_self ..)
    exact oneOperand_ofNat hx _

/-! ## What the decoder reads fits its field (R41) -/

theorem wellFormed_of_noOperand {a b : BitVec 12} {c : Instr} (hargs : c.operands = [])
    (h : noOperand a b c = .ok i) : WellFormed i := by
  unfold noOperand at h
  split at h
  · cases h; simp [WellFormed, hargs]
  · cases h

theorem wellFormed_of_oneOperand {a b : BitVec 12} {c : Nat → Instr} (hargs : ∀ x, (c x).operands = [x])
    (h : oneOperand a b c = .ok i) : WellFormed i := by
  unfold oneOperand at h
  split at h
  · cases h; simpa [WellFormed, hargs] using a.isLt
  · cases h

theorem wellFormed_of_twoOperands {a b : BitVec 12} {c : Nat → Nat → Instr}
    (hargs : ∀ x y, (c x y).operands = [x, y]) (h : twoOperands a b c = .ok i) : WellFormed i := by
  cases h
  simpa [WellFormed, hargs] using ⟨a.isLt, b.isLt⟩

/-- Every operand of a decoded command is a number of 12 bits (R41). -/
theorem wellFormed_of_decode {w : Word} (h : decode w = .ok i) : WellFormed i := by
  unfold decode decodeFields at h
  split at h
  case h_1 | h_2 | h_12 | h_14 => exact wellFormed_of_noOperand rfl h
  case h_4 | h_5 => exact wellFormed_of_twoOperands (fun _ _ => rfl) h
  case h_17 => cases h
  all_goals exact wellFormed_of_oneOperand (fun _ => rfl) h -- the ten commands with the one operand `A`

/-- Settles O1: the decoder reads back what the encoder writes, and loses no bit of a word that it accepts. -/
theorem encodeDecodeAgree : Obligations.EncodeDecodeAgree :=
  ⟨fun _ h => decode_encode h, fun _ _ h => ⟨wellFormed_of_decode h, encode_of_decode h⟩⟩

/-- Settles O3: thirteen words, each evaluated. -/
theorem specWordsDecode : Obligations.SpecWordsDecode := by
  unfold Obligations.SpecWordsDecode
  decide

/-! ## A narrow transport (R32) -/

/-- A part of a word in front of the byte below it is the part that covers both. -/
theorem append_extract_byte (w : Word) (k m : Nat) :
    w.extractLsb' (k + 8) m ++ w.extractLsb' k 8 = w.extractLsb' k (m + 8) :=
  BitVec.extractLsb'_append_extractLsb'_eq_extractLsb' rfl

/-- The four bytes of a word, put together again from the most significant one down, are the word. -/
theorem wordOfTransport_transportBytes (w : Word) : wordOfTransport (transportBytes w) = some w := by
  rw [transportBytes, wordOfTransport, append_extract_byte w 16 8, append_extract_byte w 8 16,
    append_extract_byte w 0 24, BitVec.extractLsb'_eq_self]

/-- Settles O4: the spec's own word evaluated, and the way back for every word. -/
theorem transportIsLittleEndian : Obligations.TransportIsLittleEndian :=
  ⟨by decide, wordOfTransport_transportBytes⟩

end Sys2Proof
end

section
/-! PROOFS. Accepted words in a block that is not halted (R44, R45, R46), and the one response that every accepted word
gets (R42). -/

namespace Sys2Proof.Machine

variable {s : State}

/-- A word placed by `withFetchWord` is accepted at the next edge (R44). -/
theorem accepts_withFetchWord (s : State) (w : Word) : Accepts (s.withFetchWord 32 w.toNat) w s.port := by
  have hword : BitVec.ofNat 32 (w.toNat % 2 ^ 32) = w := by
    rw [Nat.mod_eq_of_lt w.isLt, BitVec.ofNat_toNat, BitVec.setWidth_eq]
  exact ⟨.offer _, rfl, rfl, rfl, hword, rfl⟩

/-- Settles O5: the accepted word runs, and the word that runs is the command it decodes to. -/
theorem stepRunsDecodedCommand : Obligations.StepRunsDecodedCommand := by
  have runs (s : State) (w : Word) (rest : List PortIn) (i : Instr) (hacc : Accepts s w rest)
      (hd : decode w = .ok i) : step s = exec i { s with port := rest } :=
    (step_of_accepts hacc).trans (stepWord_legal hd _)
  exact ⟨runs, fun s w i hd => runs _ w s.port i (accepts_withFetchWord s w) hd⟩

/-- An illegal word in a block that is not halted fails with `E_ILLEGAL` (R101). -/
theorem execIllegal_running (hok : s.err = .ok) (w : Word) :
    execIllegal w s = .next ((s.latch .illegal w).answer .illegal 0) := unlessHalted_running hok _

/-- Settles O6: the accepted word runs, and being illegal it fails. -/
theorem illegalWordFails : Obligations.IllegalWordFails := by
  intro s w rest e hacc hd hok
  rw [step_of_accepts hacc, stepWord_illegal hd]
  exact execIllegal_running (s := { s with port := rest }) hok w

/-- No command has an effect on the signals still to come (R44). -/
theorem effectOf_port (i : Instr) (s : State) : (effectOf i s).port = s.port := by
  cases i with
  | gpush v => exact State.advanceLoad_port _
  | nop | rst | rdr | bfld | gmul | rdlog | rdpow | bgen | gload | rdg | einit | edata | efin | rdchk | rdacc => rfl

/-- Settles O10: whatever an accepted word does, it ends in one answer, and both kinds of error answer 0. -/
theorem everyWordIsAnsweredOnce : Obligations.EveryWordIsAnsweredOnce := by
  intro w s t h
  obtain ⟨-, rfl⟩ | ⟨-, e, -, rfl⟩ | ⟨i, -, rfl⟩ := stepWord_next h
  · exact ⟨rfl, ⟨.halted, 0⟩, rfl, fun _ => rfl⟩
  · exact ⟨rfl, ⟨e, 0⟩, rfl, fun _ => rfl⟩
  · exact ⟨effectOf_port i s, ⟨.ok, valueOf i s⟩, rfl, fun herr => absurd rfl herr⟩

end Sys2Proof.Machine
end

section
/-! PROOFS. Which errors a command raises (R100), and that a halted block answers every command of a pseudo-instruction
with `E_HALTED` (R49, R112). -/

namespace Sys2Proof.Machine

variable {i : Instr} {s : State} {e : ErrCode}

/-! ## The errors of a command are those that R100 lists -/

/-- Each check of a command names an error of the column "Raised by" of R100. -/
theorem mem_raises_of_mem_checksOf : ∀ c ∈ checksOf i s, c.2 ∈ raises i := by
  cases i <;> simp [checksOf, raises, State.needsField, State.needsGenerator, State.needsLoad, State.needsEncoding,
    State.needsDone, State.needsEncode]

theorem mem_raises_of_firstFailure (h : firstFailure (checksOf i s) = some e) : e ∈ raises i :=
  mem_raises_of_mem_checksOf _ (firstFailure_some h)

/-- Settles O16: of all that a command can do, only the halt answers `E_HALTED`, and only a check names an error. -/
theorem commandsRaiseOnlyTheirErrors : Obligations.CommandsRaiseOnlyTheirErrors := by
  refine ⟨by decide, fun i s t r h hr => ?_⟩
  obtain ⟨halted, rfl⟩ | ⟨hok, e, he, rfl⟩ | ⟨-, rfl⟩ := exec_next h <;>
    rw [State.answer_rsp, Option.some.injEq] at hr <;> subst hr
  · exact .inr (.inr ⟨halted, rfl⟩)
  · exact .inr (.inl ⟨hok, mem_raises_of_firstFailure he⟩)
  · exact .inl rfl

/-! ## The rest of a pseudo-instruction in a halted block -/

/-- R112: a command that does not ignore the halt is answered `E_HALTED`. -/
theorem exec_halted (hi : ignoresHalt i = false) (hs : s.err ≠ .ok) :
    exec i s = .next { s with rsp := some ⟨.halted, 0⟩ } := by
  rw [exec_eq, if_neg (by simp [hi, hs])]
  rfl

/-- No pseudo-instruction stands for `RST` or `RDR` (R49). -/
theorem ignoresHalt_of_mem_expand (ps : Pseudo) : ∀ i ∈ ps.expand, ignoresHalt i = false := by
  intro i hi
  cases ps with
  | field283 | field929 => obtain rfl := List.mem_singleton.1 hi; rfl
  | ldgen cs =>
    obtain rfl | hi := List.mem_cons.1 hi
    · rfl
    · obtain ⟨c, -, rfl⟩ := List.mem_map.1 hi; rfl
  | encode ds =>
    obtain rfl | ⟨d, -, rfl⟩ | rfl : i = .einit ∨ (∃ d ∈ ds, .edata d = i) ∨ i = .efin := by
      simpa [Pseudo.expand] using hi
    all_goals rfl

/-- R112: commands of which none ignores the halt leave a halted block as the first of them does. -/
theorem execAll_halted {is : List Instr} (hne : is ≠ []) (hi : ∀ i ∈ is, ignoresHalt i = false)
    (hs : s.err ≠ .ok) : execAll is s = .next { s with rsp := some ⟨.halted, 0⟩ } := by
  induction is generalizing s with
  | nil => exact absurd rfl hne
  | cons i is ih =>
    rw [execAll_cons (exec_halted (hi i (List.mem_cons_self ..)) hs)]
    by_cases hlast : is = []
    · rw [hlast]; rfl
    · exact ih hlast (fun j hj => hi j (List.mem_cons_of_mem _ hj)) hs

/-- Settles O17: the commands still to come are commands of the expansion, and none of those ignores the halt. -/
theorem expandedCommandsAfterAFailureAreHalted : Obligations.ExpandedCommandsAfterAFailureAreHalted := by
  intro ps rest s hs hne hrest
  have hi : ∀ i ∈ rest, ignoresHalt i = false := fun i h => ignoresHalt_of_mem_expand ps i (hrest.subset h)
  exact ⟨execAll_halted hne hi hs, fun i h => exec_halted (hi i h) hs⟩

end Sys2Proof.Machine
end

section
/-! PROOFS. The invariants of R18: every command, word, edge and step keeps them, so they hold in every state reachable
from reset; and under them every step gives a next state. -/

namespace Sys2Proof.Machine

variable {s t : State} {i : Instr}

/-! ## The effect of a command keeps the invariants -/

/-- The value 3 of `PHASE` is never taken (R12). -/
theorem phase_code_ne (ph : Phase) : ph.code ≠ 3 := by cases ph <;> decide

/-- `BFLD` holds a field and nothing that rests on one (R50, R51). -/
theorem invariant_bfld (hs : Invariant s) {msel root : Nat} (hc : Passes (.bfld msel root) s) :
    Invariant (effectOf (.bfld msel root) s) := by
  obtain ⟨-, ⟨h1, h2⟩, hprim⟩ := hc
  have hq := modulus_prime (BitVec.ofNat 1 msel)
  have hle : modulus (BitVec.ofNat 1 msel) ≤ 929 := (effectOf (.bfld msel root) s).p_le
  obtain ⟨hlog, hpow, hg, hacc⟩ := storageWf_iff.1 hs.storage_wf
  exact { hs with
    generator_field := nofun
    load_field := nofun
    phase_generator := fun h => absurd rfl h
    length_range := fun h => by rcases h with h | h <;> cases h
    length_zero := fun _ _ => rfl
    pointer_lt := nofun
    pointer_zero := fun _ => rfl
    field_ok := fun _ => fieldOk_build _ _ root rfl (toNat_entry (by omega)) h1 h2 hprim s.log s.pow
      hs.storage_wf.log hs.storage_wf.pow rfl rfl
    no_field := nofun
    generator_ok := nofun
    acc_ok := fun h => absurd rfl h
    legal_codes := ⟨phase_code_ne .idle, errCode_lt _⟩
    load_ok := nofun
    storage_wf := storageWf_iff.2 ⟨wf_buildLog hq hle h1 h2 _ hlog, wf_buildPow hle _ hpow, hg, hacc⟩ }

/-- `GLOAD n` starts a load with the leading coefficient written and no other (R61). -/
theorem invariant_gload (hs : Invariant s) {n : Nat} (hc : Passes (.gload n) s) :
    Invariant (effectOf (.gload n) s) := by
  obtain ⟨hfv, h1, hn⟩ := hc
  have hn' := toNat_length hn
  obtain ⟨hlog, hpow, hg, hacc⟩ := storageWf_iff.1 hs.storage_wf
  exact { hs with
    generator_field := nofun
    load_field := fun _ => ⟨hfv, rfl⟩
    phase_generator := fun h => absurd rfl h
    length_range := fun _ => by
      show 1 ≤ (BitVec.ofNat 8 n).toNat ∧ (BitVec.ofNat 8 n).toNat ≤ 128
      rw [hn']; exact ⟨h1, hn⟩
    length_zero := nofun
    pointer_lt := fun _ => by
      show 0 < (BitVec.ofNat 8 n).toNat
      rw [hn']; exact h1
    pointer_zero := nofun
    field_ok := fun _ => (hs.field_ok hfv).congr rfl rfl rfl rfl
    generator_ok := nofun
    acc_ok := fun h => absurd rfl h
    legal_codes := ⟨phase_code_ne .idle, errCode_lt _⟩
    load_ok := fun _ => ⟨fun k hk => absurd hk (Nat.not_lt_zero k), by
      show (s.g.write n 1).read (BitVec.ofNat 8 n).toNat = 1
      rw [hn', Storage.read_write _ hs.storage_wf.g, if_pos rfl]⟩
    storage_wf := storageWf_iff.2 ⟨hlog, hpow, Storage.wf_write _ _ hg n (by show n < 129; omega) 1, hacc⟩ }

/-- Moving on by 1 does not wrap a pointer to an entry of `G` (R10, R13). -/
theorem toNat_gptr_succ (h : s.gptr.toNat ≤ 128) : (s.gptr + 1).toNat = s.gptr.toNat + 1 := by
  rw [BitVec.toNat_add]; exact Nat.mod_eq_of_lt (by show s.gptr.toNat + 1 < 256; omega)

section Push

variable {v : Nat} (hs : Invariant s) (hl : s.gld = true)

include hs hl

/-- The coefficients loaded after `GPUSH v`, the new one among them, are field values (R62). -/
theorem read_gpush_lt (hv : v < s.p) {k : Nat} (hk : k ≤ s.gptr.toNat) :
    ((s.g.write s.gptr.toNat (BitVec.ofNat 10 v)).read k).toNat < s.p := by
  have hp := s.p_le
  rw [Storage.read_write _ hs.storage_wf.g]
  split
  · rwa [toNat_entry (by omega)]
  · exact (hs.load_ok hl).1 k (by omega)

/-- `GPUSH` does not reach the leading coefficient that `GLOAD` has written (R61, R62). -/
theorem read_gpush_lead (e : Entry) : (s.g.write s.gptr.toNat e).read s.n.toNat = 1 := by
  have hlt := hs.pointer_lt hl
  rw [Storage.read_write _ hs.storage_wf.g, if_neg (by omega), (hs.load_ok hl).2]

/-- During a load the pointer is the index of an entry of `G` (R18 items 4 and 5). -/
theorem gptr_lt_of_load : s.gptr.toNat < 128 :=
  (hs.pointer_lt hl).trans_le (hs.length_range (.inr hl)).2

theorem wf_gpush (e : Entry) : (s.g.write s.gptr.toNat e).wf Config.gDepth = true :=
  Storage.wf_write _ _ (hs.storage_wf .g) _ ((gptr_lt_of_load hs hl).trans (by decide)) e

/-- The `N`-th push completes a generator of field values (R62). -/
theorem invariant_gpush_last (hv : v < s.p) (hlast : s.gptr.toNat + 1 = s.n.toNat) :
    Invariant (effectOf (.gpush v) s) := by
  obtain ⟨hfv, hgv⟩ := hs.load_field hl
  have hlead := read_gpush_lead hs hl (BitVec.ofNat 10 v)
  obtain ⟨hlog, hpow, -, hacc⟩ := storageWf_iff.1 hs.storage_wf
  rw [effectOf_gpush_last s hlast]
  exact { hs with
    generator_field := fun _ => hfv
    load_field := nofun
    phase_generator := fun _ => rfl
    length_range := fun _ => hs.length_range (.inr hl)
    length_zero := nofun
    pointer_lt := nofun
    pointer_zero := fun _ => rfl
    field_ok := fun _ => (hs.field_ok hfv).congr rfl rfl rfl rfl
    generator_ok := fun _ => ⟨fun k (hk : k ≤ s.n.toNat) => by
      rcases Nat.lt_or_eq_of_le hk with h | rfl
      · exact read_gpush_lt hs hl hv (by omega)
      · exact hlead ▸ s.p_prime.one_lt, hlead⟩
    load_ok := nofun
    storage_wf := storageWf_iff.2 ⟨hlog, hpow, wf_gpush hs hl _, hacc⟩ }

/-- Any other push adds one field value to those loaded (R62). -/
theorem invariant_gpush_more (hv : v < s.p) (hmore : s.gptr.toNat + 1 ≠ s.n.toNat) :
    Invariant (effectOf (.gpush v) s) := by
  obtain ⟨hfv, hgv⟩ := hs.load_field hl
  have hlt := hs.pointer_lt hl
  have hnext := toNat_gptr_succ (gptr_lt_of_load hs hl).le
  obtain ⟨hlog, hpow, -, hacc⟩ := storageWf_iff.1 hs.storage_wf
  rw [effectOf_gpush_more s hmore]
  exact { hs with
    pointer_lt := fun _ => by
      show (s.gptr + 1).toNat < s.n.toNat
      omega
    pointer_zero := fun h => absurd hl (by simp [show s.gld = false from h])
    field_ok := fun _ => (hs.field_ok hfv).congr rfl rfl rfl rfl
    generator_ok := fun h => absurd hgv (by simp [show s.gv = true from h])
    load_ok := fun _ => ⟨fun k (hk : k < (s.gptr + 1).toNat) => read_gpush_lt hs hl hv (by omega),
      read_gpush_lead hs hl _⟩
    storage_wf := storageWf_iff.2 ⟨hlog, hpow, wf_gpush hs hl _, hacc⟩ }

end Push

theorem invariant_gpush (hs : Invariant s) {v : Nat} (hc : Passes (.gpush v) s) :
    Invariant (effectOf (.gpush v) s) := by
  obtain ⟨hl, hv⟩ := hc
  by_cases hlast : s.gptr.toNat + 1 = s.n.toNat
  · exact invariant_gpush_last hs hl hv hlast
  · exact invariant_gpush_more hs hl hv hlast

/-- Replacing `ACC[0 .. N-1]` by field values, in a phase in which a generator is held, keeps the invariants: this is
what the commands of the division engine do (R70, R72, R73). -/
theorem Invariant.withAcc (hs : Invariant s) (hgv : s.gv = true) {l : List Nat} (hlen : l.length = s.n.toNat)
    (hl : ∀ c ∈ l, c < s.p) (ph : Phase) : Invariant { s with acc := s.acc.writeFrom 0 l, phase := ph } := by
  have hn : s.n.toNat ≤ 128 := (hs.length_range (.inl hgv)).2
  have hholds : HoldsInAcc s (s.acc.writeFrom 0 l) l := .writeFrom hs.storage_wf.acc (fun _ _ => rfl) hlen hl
  obtain ⟨hlog, hpow, hg, hacc⟩ := storageWf_iff.1 hs.storage_wf
  exact { hs with
    phase_generator := fun _ => hgv
    field_ok := fun hfv => (hs.field_ok hfv).congr rfl rfl rfl rfl
    acc_ok := fun _ j hj => hholds.toNat_read_lt hl hj
    legal_codes := ⟨phase_code_ne ph, errCode_lt _⟩
    storage_wf := storageWf_iff.2 ⟨hlog, hpow, hg,
      Storage.wf_writeFrom _ _ hacc 0 l (by show 0 + l.length ≤ 128; omega)⟩ }

/-- In phase `ENCODING` a generator is held, of length 1 to 128 (R18 items 3 and 4). -/
theorem Invariant.of_encoding (hs : Invariant s) (hph : s.phase = .encoding) :
    s.gv = true ∧ 1 ≤ s.n.toNat ∧ s.n.toNat ≤ 128 := by
  have hgv := hs.phase_generator (by rw [hph]; nofun)
  exact ⟨hgv, hs.length_range (.inl hgv)⟩

theorem invariant_einit (hs : Invariant s) (hc : Passes .einit s) : Invariant (effectOf .einit s) :=
  hs.withAcc hc List.length_replicate (remainder_lt []) _

theorem invariant_edata (hs : Invariant s) {d : Nat} (hc : Passes (.edata d) s) :
    Invariant (effectOf (.edata d) s) := by
  obtain ⟨hgv, h1, -⟩ := hs.of_encoding hc.1
  have hne : s.acc.span s.n.toNat ≠ [] := List.ne_nil_of_length_pos (by rwa [Storage.length_span])
  exact hs.withAcc hgv (by rw [length_lfsrStep _ _ _ (by simp) hne, Storage.length_span]) (lfsrStep_lt _ _ d) s.phase

/-- In a phase other than `IDLE` the negated accumulator holds field values (R18 item 8, R73). -/
theorem Invariant.negate_lt (hs : Invariant s) (hph : s.phase ≠ .idle) :
    ∀ c ∈ (s.acc.span s.n.toNat).map s.negate, c < s.p := by
  intro c hc
  obtain ⟨a, ha, rfl⟩ := List.mem_map.1 hc
  obtain ⟨j, hj, rfl⟩ := List.mem_map.1 ha
  exact Machine.negate_lt (hs.acc_ok hph j (List.mem_range.1 hj))

theorem invariant_efin (hs : Invariant s) (hc : Passes .efin s) : Invariant (effectOf .efin s) := by
  obtain ⟨hgv, -⟩ := hs.of_encoding hc
  exact hs.withAcc hgv (by simp) (hs.negate_lt (by rw [show s.phase = .encoding from hc]; nofun)) _

/-- R18: what a command does when its checks pass keeps the invariants. -/
theorem Invariant.effect (hs : Invariant s) (hc : Passes i s) : Invariant (effectOf i s) := by
  cases i with
  | rst => exact .of_resetRegisters hs.storage_wf
  | bfld => exact invariant_bfld hs hc
  | bgen => exact invariant_bgen hs hc
  | gload => exact invariant_gload hs hc
  | gpush => exact invariant_gpush hs hc
  | einit => exact invariant_einit hs hc
  | edata => exact invariant_edata hs hc
  | efin => exact invariant_efin hs hc
  | nop | rdr | gmul | rdlog | rdpow | rdg | rdchk | rdacc => exact hs

/-! ## Commands, words, edges and steps keep the invariants -/

/-- R107: no command raises `E_HALTED` of its own. -/
theorem halted_not_mem_raises (i : Instr) : .halted ∉ raises i := by
  cases i <;> simp [raises]

theorem Invariant.exec (hs : Invariant s) (h : exec i s = .next t) : Invariant t := by
  obtain ⟨-, rfl⟩ | ⟨-, e, he, rfl⟩ | ⟨hc, rfl⟩ := exec_next h
  · exact hs.answer _ _
  · have hraised := mem_raises_of_firstFailure he
    have hword : encode i ≠ 0 := encode_ne_zero i (by rintro rfl; cases hraised)
    exact (hs.latch e _ (checksOf_ne_ok i s he) (by rintro rfl; exact halted_not_mem_raises i hraised) hword).answer _ _
  · exact (hs.effect hc).answer _ _

/-- The word 0 is `NOP`, so an illegal word is not 0 (R43). -/
theorem ne_zero_of_illegal {w : Word} {x : Illegal} (h : decode w = .error x) : w ≠ 0 := by
  rintro rfl
  rw [show decode 0 = .ok .nop by decide] at h
  cases h

theorem Invariant.stepWord (hs : Invariant s) {w : Word} (h : stepWord w s = .next t) : Invariant t := by
  cases hd : decode w with
  | ok i => exact hs.exec (stepWord_legal hd s ▸ h)
  | error x =>
    rw [stepWord_illegal hd] at h
    by_cases hok : s.err = .ok
    · obtain rfl := Host.Outcome.next.inj ((execIllegal_running hok w).symm.trans h)
      exact (hs.latch .illegal w nofun nofun (ne_zero_of_illegal hd)).answer _ _
    · obtain rfl := Host.Outcome.next.inj ((unlessHalted_halted hok _).symm.trans h)
      exact hs.answer _ _

/-- A hard reset gives the invariants back (R120). -/
theorem Invariant.hardReset (hs : Invariant s) : Invariant (hardReset s) :=
  (Invariant.of_resetRegisters hs.storage_wf).port none s.port

theorem Invariant.edge (hs : Invariant s) {sig : PortIn} (h : edge sig s = .next t) : Invariant t := by
  obtain ⟨-, rfl⟩ | ⟨-, -, -, hword⟩ | ⟨-, -, -, rfl⟩ | ⟨-, rfl⟩ := edge_next h
  · exact hs.hardReset
  · exact hs.stepWord hword
  · exact hs.port none s.port
  · exact hs

theorem Invariant.step (hs : Invariant s) (h : step s = .next t) : Invariant t := by
  obtain ⟨-, rfl⟩ | ⟨sig, rest, -, hedge⟩ := step_next h
  · exact hs
  · exact (hs.port s.rsp rest).edge hedge

/-- Settles O44: a step waits or is an edge, an edge at most runs a word, and each keeps the invariants. -/
theorem everyStepKeepsTheInvariants : Obligations.EveryStepKeepsTheInvariants :=
  fun _ _ hs h => hs.step h

/-! ## Every reachable state satisfies the invariants -/

/-- Settles O43: the reset state is its own reset, with four empty storage spaces. -/
theorem resetSatisfiesTheInvariants : Obligations.ResetSatisfiesTheInvariants :=
  Invariant.of_resetRegisters (s := State.reset) (storageWf_iff.2 ⟨rfl, rfl, rfl, rfl⟩)

/-- A run of `k + 1` steps is a step and a run of `k` steps. -/
theorem run_succ_next {M : Host.Core} {k : Nat} {s t : M.State} (h : M.run (k + 1) s = .next t) :
    ∃ u, M.step s = .next u ∧ M.run k u = .next t := by
  rw [Host.Core.run] at h
  split at h
  · exact ⟨_, ‹_›, h⟩
  · cases h
  · cases h

/-- R18: any number of steps keeps the invariants. -/
theorem Invariant.run (hs : Invariant s) {k : Nat} (h : Host.Core.run Sys2Proof.core k s = .next t) :
    Invariant t := by
  induction k generalizing s with
  | zero => cases h; exact hs
  | succ k ih =>
    obtain ⟨u, hstep, hrun⟩ := run_succ_next h
    exact ih (hs.step hstep) hrun

/-- Settles O45: the run starts in the reset state, whose invariants say nothing of the signals to come. -/
theorem reachableStatesSatisfyTheInvariants : Obligations.ReachableStatesSatisfyTheInvariants := by
  rintro s ⟨signals, k, hrun⟩
  exact (resetSatisfiesTheInvariants.port none signals).run hrun

/-! ## Under the invariants the machine never stops -/

/-- R33: under the invariants a command whose checks pass reaches only entries that exist. -/
theorem Invariant.entriesExist (hs : Invariant s) (hc : Passes i s) : entriesExist i s = true := by
  have accEntry {j : Nat} (hph : s.phase ≠ .idle) (hj : j < s.n.toNat) : decide (j < Config.accDepth) = true :=
    decide_eq_true (hj.trans_le (hs.length_range (.inl (hs.phase_generator hph))).2)
  cases i with
  | gpush v => exact decide_eq_true ((gptr_lt_of_load hs hc.1).trans (by decide))
  | rdg k => exact decide_eq_true (Nat.lt_succ_of_le (hc.2.trans (hs.length_range (.inl hc.1)).2))
  | einit => exact decide_eq_true (hs.length_range (.inl hc)).2
  | edata d =>
    obtain ⟨-, h1, hn⟩ := hs.of_encoding hc.1
    exact Bool.and_eq_true_iff.2 ⟨decide_eq_true h1, decide_eq_true hn⟩
  | efin =>
    obtain ⟨-, -, hn⟩ := hs.of_encoding hc
    exact decide_eq_true hn
  | rdchk j => exact accEntry (by rw [hc.1]; nofun) hc.2
  | rdacc j => exact accEntry hc.1 hc.2
  | nop | rst | rdr | bfld | gmul | rdlog | rdpow | bgen | gload => rfl

/-- R33, R131: under the invariants every command gives a next state. -/
theorem Invariant.exec_total (hs : Invariant s) (i : Instr) : ∃ t, Machine.exec i s = .next t := by
  rw [exec_eq, runOf]
  split
  · split
    · exact ⟨_, rfl⟩
    · rename_i hc
      rw [ifExists_inside (hs.entriesExist ((checksOf_none_iff i s).1 hc))]
      exact ⟨_, rfl⟩
  · exact ⟨_, rfl⟩

theorem Invariant.stepWord_total (hs : Invariant s) (w : Word) : ∃ t, Machine.stepWord w s = .next t := by
  cases hd : decode w with
  | ok i => rw [stepWord_legal hd]; exact hs.exec_total i
  | error x =>
    rw [stepWord_illegal hd, execIllegal, unlessHalted]
    split <;> exact ⟨_, rfl⟩

theorem Invariant.edge_total (hs : Invariant s) (sig : PortIn) : ∃ t, Machine.edge sig s = .next t := by
  unfold Machine.edge
  split
  · exact ⟨_, rfl⟩
  · split
    · exact hs.stepWord_total _
    · split <;> exact ⟨_, rfl⟩

/-- Settles O46: waiting is a next state, and an edge that runs a word finds every entry the word's command reaches. -/
theorem noStepStopsUnderTheInvariants : Obligations.NoStepStopsUnderTheInvariants := by
  intro s hs
  cases hport : s.port with
  | nil => exact ⟨s, step_of_port_nil hport⟩
  | cons sig rest =>
    rw [step_of_port_cons hport]
    exact (hs.port s.rsp rest).edge_total sig

end Sys2Proof.Machine
end

section
/-! PROOFS. The field held: what `BFLD` leaves is a function of its operands (R28), and `RDLOG` and `RDPOW` read the
tables of R15 and R16. -/

namespace Sys2Proof.Machine

variable {i : Instr} {s t : State}

/-- A command that is answered `OK` has passed its checks (R110). -/
theorem passes_of_answers_ok {v : Word} (h : exec i s = .next t) (hr : t.rsp = some ⟨.ok, v⟩) : Passes i s := by
  obtain ⟨-, rfl⟩ | ⟨-, e, he, rfl⟩ | ⟨hc, -⟩ := exec_next h
  · simp at hr
  · simp [checksOf_ne_ok i s he] at hr
  · exact hc

/-- Settles O25: both commands take effect, and every readable entry of the two tables is written by the build. -/
theorem bfldForgetsThePast : Obligations.BfldForgetsThePast := by
  intro s t s' t' msel root v u hs ht hexec hok hexec' hok'
  obtain ⟨-, ⟨h1, h2⟩, hprim⟩ := passes_of_answers_ok hexec hok
  obtain rfl := exec_answers_ok hexec hok
  obtain rfl := exec_answers_ok hexec' hok'
  have hq := modulus_prime (BitVec.ofNat 1 msel)
  exact ⟨rfl, rfl, fun x hx1 hx2 => read_buildLog_congr hq h1 h2 hprim hs.log ht.log hx1 hx2,
    fun i hi => read_buildPow_congr hq h1 h2 hs.pow ht.pow hi⟩

/-- Settles O27: the log table holds a logarithm of `x`, and a primitive root has no other in the range. -/
theorem rdlogReadsTheDiscreteLog : Obligations.RdlogReadsTheDiscreteLog := by
  intro s x hs hok hfv h1 hx
  have hf := hs.field_ok hfv
  have hrun : exec (.rdlog x) s = .next (s.answered (zext32 (s.log.read x))) := exec_passes hok ⟨hfv, h1, hx⟩ rfl
  refine ⟨(s.log.read x).toNat, by rw [hrun, zext32_eq_word32], hf.log_le x h1 hx, hf.log_spec x h1 hx,
    fun j' hj' hpow => ?_⟩
  exact primitive_pow_inj s.p_prime hf.root_pos hf.root_lt hf.primitive hj' (hf.log_le x h1 hx)
    (hpow.trans (hf.log_spec x h1 hx).symm)

/-- `RDPOW i` responds the power of the root for every readable `i` (R16, R54). -/
theorem exec_rdpow (hs : Invariant s) (hok : s.err = .ok) (hfv : s.fv = true) {i : Nat} (hi : i < 2 * (s.p - 1)) :
    exec (.rdpow i) s = .next (s.answered (word32 (s.root.toNat ^ i % s.p))) := by
  have hrun : exec (.rdpow i) s = .next (s.answered (zext32 (s.pow.read i))) := exec_passes hok ⟨hfv, hi⟩ rfl
  rw [hrun, zext32_eq_word32, (hs.field_ok hfv).pow_spec i hi]

/-- Settles O28: the second copy of the table continues the powers, and the power `p-1` of the root is 1. -/
theorem rdpowReadsThePower : Obligations.RdpowReadsThePower := by
  intro s i hs hok hfv hi
  refine ⟨exec_rdpow hs hok hfv hi, fun hcopy => ?_⟩
  have hf := hs.field_ok hfv
  have hp := s.p_ge
  rw [show i + s.p - 1 = i + (s.p - 1) by omega, exec_rdpow hs hok hfv (by omega), exec_rdpow hs hok hfv hi,
    root_pow_last s.p_prime hf.root_pos hf.root_lt]

end Sys2Proof.Machine
end

section
/-! PROOFS. Loading a generator (R61, R62), the whole load `LDGEN` (R49), and reading a coefficient (R63). -/

namespace Sys2Proof.Machine

variable {s : State}

/-! ## One command of a load -/

/-- `GLOAD` with its prerequisites takes effect and responds (R61). -/
theorem exec_gload {n : Nat} (hok : s.err = .ok) (hfv : s.fv = true) (h1 : 1 ≤ n) (hn : n ≤ 128) :
    exec (.gload n) s = .next ((effectOf (.gload n) s).answered 0) :=
  exec_passes hok ⟨hfv, h1, hn⟩ rfl

/-- `GPUSH` with its prerequisites takes effect and responds (R62). -/
theorem exec_gpush {v : Nat} (hok : s.err = .ok) (hl : s.gld = true) (hv : v < s.p) (hptr : s.gptr.toNat ≤ 128) :
    exec (.gpush v) s = .next ((effectOf (.gpush v) s).answered 0) :=
  exec_passes hok ⟨hl, hv⟩ (decide_eq_true (Nat.lt_succ_of_le hptr))

/-- Settles O31: the effect of `GLOAD` is one write to `G` besides the registers. -/
theorem gloadStartsALoad : Obligations.GloadStartsALoad := fun s n hwf hok hfv h1 hn =>
  ⟨s.g.write n 1, exec_gload hok hfv h1 hn, Storage.read_write s.g hwf.g n 1⟩

/-- A write of a field value to one entry, as every entry reads afterwards (R36). -/
theorem toNat_read_write {m : Storage} (hm : m.sorted) {v : Nat} (hv : v < s.p) (a k : Nat) :
    ((m.write a (BitVec.ofNat 10 v)).read k).toNat = if k = a then v else (m.read k).toNat := by
  have hp := s.p_le
  rw [Storage.read_write m hm]
  split
  · exact toNat_entry (by omega)
  · rfl

/-- Settles O32: the effect of `GPUSH` is one write to `G`, and what becomes of the flags and the pointer. -/
theorem gpushWritesTheNextCoefficient : Obligations.GpushWritesTheNextCoefficient := by
  intro s v hwf hok hl hv hptr
  have hrun := exec_gpush hok hl hv hptr
  refine ⟨s.g.write s.gptr.toNat (BitVec.ofNat 10 v), toNat_read_write hwf.g hv s.gptr.toNat, fun hlast => ?_,
    fun hmore => ⟨s.gptr + 1, toNat_gptr_succ hptr, ?_⟩⟩
  · rw [hrun, effectOf_gpush_last s hlast]; rfl
  · rw [hrun, effectOf_gpush_more s hmore]; rfl

/-! ## A whole load -/

/-- The state of a load of length `n` in progress that holds the coefficients `g` with the next index `k`, between two
commands (R61, R62). -/
def State.loading (s : State) (n : Nat) (g : Storage) (k : Nat) : State :=
  { s with
    g := g, n := BitVec.ofNat 8 n, gptr := BitVec.ofNat 8 k, gld := true, gv := false, phase := .idle
    rsp := some ⟨.ok, 0⟩ }

/-- The coefficients `g` are those of the list `cs` in `G[0 ..]`, 1 in `G[n]`, and beyond it those of `s`. -/
structure HoldsInG (s : State) (n : Nat) (g : Storage) (cs : List Nat) : Prop where
  sorted : g.sorted
  span : g.span cs.length = cs
  lead : g.read n = 1
  other : ∀ k, n < k → g.read k = s.g.read k

/-- What `GLOAD n` leaves: the leading coefficient, and none below it yet (R61). -/
theorem HoldsInG.gload (hwf : StorageWf s) (n : Nat) : HoldsInG s n (s.g.write n 1) [] where
  sorted := Storage.sorted_write _ hwf.g n 1
  span := rfl
  lead := by rw [Storage.read_write _ hwf.g, if_pos rfl]
  other k hk := by rw [Storage.read_write _ hwf.g, if_neg (by omega)]

theorem span_concat (m : Storage) (k : Nat) : m.span (k + 1) = m.span k ++ [(m.read k).toNat] := by
  simp [Storage.span, List.range_succ]

/-- One more coefficient, written behind those loaded before it and below the leading one (R62). -/
theorem HoldsInG.concat {n : Nat} {g : Storage} {cs : List Nat} (h : HoldsInG s n g cs) (hlt : cs.length < n)
    {c : Nat} (hc : c < s.p) : HoldsInG s n (g.write cs.length (BitVec.ofNat 10 c)) (cs ++ [c]) where
  sorted := Storage.sorted_write _ h.sorted _ _
  span := by
    have hbelow : (g.write cs.length (BitVec.ofNat 10 c)).span cs.length = g.span cs.length :=
      span_congr fun k hk => by rw [Storage.read_write _ h.sorted, if_neg (by omega)]
    rw [List.length_append, List.length_singleton, span_concat, hbelow, h.span, toNat_read_write h.sorted hc,
      if_pos rfl]
  lead := by rw [Storage.read_write _ h.sorted, if_neg (by omega), h.lead]
  other k hk := by rw [Storage.read_write _ h.sorted, if_neg (by omega), h.other k hk]

section Load

variable {n : Nat} (hok : s.err = .ok) (hn : n ≤ 128)

include hok hn

/-- A push during the load is answered `OK`, with the new coefficient at the next index (R62). -/
theorem exec_gpush_loading {g : Storage} {k c : Nat} (hk : k < n) (hc : c < s.p) :
    exec (.gpush c) (s.loading n g k) =
      .next ({ s.loading n g k with g := g.write k (BitVec.ofNat 10 c) }.advanceLoad.answered 0) := by
  have hptr : (s.loading n g k).gptr.toNat = k := toNat_length (by omega)
  have hrun := exec_gpush (s := s.loading n g k) hok rfl hc (by omega)
  rw [effectOf, hptr] at hrun
  exact hrun

/-- Any push but the last moves the load on to the next index (R62). -/
theorem exec_gpush_more {g : Storage} {k c : Nat} (hk : k + 1 < n) (hc : c < s.p) :
    exec (.gpush c) (s.loading n g k) = .next (s.loading n (g.write k (BitVec.ofNat 10 c)) (k + 1)) := by
  have hmore : (BitVec.ofNat 8 k).toNat + 1 ≠ (BitVec.ofNat 8 n).toNat := by
    rw [toNat_length (by omega), toNat_length hn]; omega
  have hnext : BitVec.ofNat 8 k + 1 = BitVec.ofNat 8 (k + 1) := (BitVec.ofNat_add k 1).symm
  rw [exec_gpush_loading hok hn (by omega) hc, State.advanceLoad_more _ hmore, State.loading, State.loading, hnext]
  rfl

/-- The last push completes the generator (R62). -/
theorem exec_gpush_last {g : Storage} {k c : Nat} (hk : k + 1 = n) (hc : c < s.p) :
    exec (.gpush c) (s.loading n g k) = .next
      { s with
        g := g.write k (BitVec.ofNat 10 c), n := BitVec.ofNat 8 n, gptr := 0, gld := false, gv := true, phase := .idle
        rsp := some ⟨.ok, 0⟩ } := by
  have hlast : (BitVec.ofNat 8 k).toNat + 1 = (BitVec.ofNat 8 n).toNat := by
    rw [toNat_length (by omega), toNat_length hn]; omega
  rw [exec_gpush_loading hok hn (by omega) hc, State.advanceLoad_last _ hlast]
  rfl

/-- All pushes but the last, one after the other (R49, R62). -/
theorem execAll_gload_gpush (hwf : StorageWf s) (hfv : s.fv = true) (h1 : 1 ≤ n) {cs : List Nat}
    (hlen : cs.length < n) (hcs : ∀ c ∈ cs, c < s.p) :
    ∃ g, execAll (.gload n :: cs.map .gpush) s = .next (s.loading n g cs.length) ∧ HoldsInG s n g cs := by
  induction cs using List.reverseRecOn with
  | nil => exact ⟨_, execAll_cons (exec_gload hok hfv h1 hn), .gload hwf n⟩
  | append_singleton cs c ih =>
    have hlen' : cs.length + 1 < n := by simpa using hlen
    have hc : c < s.p := hcs c (by simp)
    obtain ⟨g, hrun, hg⟩ := ih (by omega) fun c hc => hcs c (List.mem_append_left _ hc)
    refine ⟨_, ?_, hg.concat (by omega) hc⟩
    rw [List.map_append, ← List.cons_append, execAll_append hrun, List.length_append]
    exact execAll_cons (exec_gpush_more hok hn hlen' hc)

end Load

/-- Settles O33: every push but the last loads a coefficient, and the last one completes the generator. -/
theorem ldgenLoadsTheCoefficients : Obligations.LdgenLoadsTheCoefficients := by
  intro s cs hwf hok hfv h1 hn hcs
  obtain ⟨cs, c, rfl⟩ := List.eq_nil_or_concat' cs |>.resolve_left (List.ne_nil_of_length_pos h1)
  have hlen : cs.length + 1 = (cs ++ [c]).length := by simp
  have hc : c < s.p := hcs c (by simp)
  obtain ⟨g, hrun, hg⟩ := execAll_gload_gpush hok hn hwf hfv h1 (cs := cs) (by omega)
    fun c hc => hcs c (List.mem_append_left _ hc)
  have hfull := hg.concat (by omega) hc
  refine ⟨_, ?_, hfull.span, hfull.lead, hfull.other⟩
  rw [Pseudo.expand, List.map_append, ← List.cons_append, execAll_append hrun]
  exact execAll_cons (exec_gpush_last hok hn hlen hc)

/-! ## Reading a coefficient -/

/-- Settles O34: `RDG` passes its checks, finds its entry, and has no effect. -/
theorem rdgReadsTheCoefficient : Obligations.RdgReadsTheCoefficient := by
  intro s k hok hgv hk hk128
  have hrun : exec (.rdg k) s = .next (s.answered (zext32 (s.g.read k))) :=
    exec_passes hok ⟨hgv, hk⟩ (decide_eq_true (Nat.lt_succ_of_le hk128))
  rw [hrun, zext32_eq_word32]

end Sys2Proof.Machine
end

section
/-! PROOFS. The division engine: `EINIT` (R70), `EFIN` (R73), and the reads of the accumulator (R74, R75). -/

namespace Sys2Proof.Machine

/-- Settles O35: `EINIT` writes `N` zeros from entry 0 up. -/
theorem einitClearsTheAccumulator : Obligations.EinitClearsTheAccumulator := by
  intro s hwf hok hgv hn
  refine ⟨s.acc.writeFrom 0 (List.replicate s.n.toNat 0), exec_passes hok hgv (decide_eq_true hn), fun j => ?_⟩
  have hzero : (List.replicate s.n.toNat 0).getD (j - 0) 0 = 0 := by simp
  rw [Storage.read_writeFrom _ hwf.acc, List.length_replicate, Nat.zero_add, hzero]
  simp only [Nat.zero_le, true_and]
  rfl

/-- Settles O37: the negated entries replace those of the accumulator (`HoldsInAcc`). -/
theorem efinNegatesTheRemainder : Obligations.EfinNegatesTheRemainder := by
  intro s hs hok hph
  obtain ⟨-, -, hn⟩ := hs.of_encoding hph
  have hholds : HoldsInAcc s (s.acc.writeFrom 0 ((s.acc.span s.n.toNat).map s.negate))
      ((s.acc.span s.n.toNat).map s.negate) :=
    .writeFrom hs.storage_wf.acc (fun _ _ => rfl) (by simp) (hs.negate_lt (by rw [hph]; nofun))
  refine ⟨s.acc.writeFrom 0 ((s.acc.span s.n.toNat).map s.negate), exec_passes hok hph (decide_eq_true hn),
    fun j hj => ?_, hholds.other⟩
  have hnegated : ((s.acc.span s.n.toNat).map s.negate).getD j 0 = s.negate (s.acc.read j).toNat := by
    rw [List.getD_eq_getElem _ _ (by simpa using hj), List.getElem_map, Storage.getElem_span]
  rw [hholds.toNat_read hj, hnegated, State.negate, ite_not]

/-- Settles O38: both reads pass their checks, find their entry, and have no effect. -/
theorem accumulatorReads : Obligations.AccumulatorReads := by
  intro s j hok hj hj128
  rw [← zext32_eq_word32]
  exact ⟨fun hph => exec_passes hok ⟨hph, hj⟩ (decide_eq_true hj128),
    fun hph => exec_passes hok ⟨hph, hj⟩ (decide_eq_true hj128)⟩

end Sys2Proof.Machine
end

section
/-! PROOFS. The reset state (R120) and `NOP` (R80). -/

namespace Sys2Proof.Machine

/-- Settles O18: the reset state is its own reset, and without port signals the block waits. -/
theorem resetLeavesEveryRegisterZero : Obligations.ResetLeavesEveryRegisterZero :=
  ⟨resetRegisters_registersReset State.reset none, rfl, step_of_port_nil rfl⟩

/-- Settles O19: `NOP` has no check to fail, no entry to find and no effect. -/
theorem nopDoesNothing : Obligations.NopDoesNothing :=
  fun _ hok => exec_passes hok trivial rfl

end Sys2Proof.Machine
end
